-- ==== Sys2Proof/Word.lean ====
section
/-!
DEFINITION. The machine word of the tpm execution core: a raw 64-bit pattern with no type (00_scope R10,
10_state R21). `u64(v)` of the spec is `v.toNat`, `s64(v)` is `v.toInt` (00_scope R12).
-/

namespace Sys2Proof

/-- A register value, a memory word or an instruction word: 64 bits, bit 0 the least significant (R10). -/
abbrev Word := BitVec 64

end Sys2Proof
end

