-- ==== Sys2Proof/Config.lean ====
section
/-!
DEFINITION. What an implementation fixes and the spec leaves open (00_scope R9): the one open parameter
`NAN_RESULT`. The parameters whose value the spec gives (capacity, zone bounds, `SP_RESET`, widths, rotations,
opcode numbers; 30_encoding R99) are named constants in `Machine/Params.lean` and `Decode.lean`.
-/

namespace Sys2Proof

/-- The four operations whose NaN results are open (42_arithmetic R160 (d)). -/
inductive ArithOp where
  | add | sub | mul | div
deriving DecidableEq, Repr

/-- A NaN pattern without its fixed exponent: the sign bit, and the fraction less one, so that the values of
this type are exactly the NaN patterns (bits 62:52 all ones, bits 51:0 not zero; R160 (d)). -/
structure NanPattern where
  sign : Bool
  fractionLessOne : Fin 4503599627370495
deriving DecidableEq, Repr, Inhabited

/-- The ISA's name; it has no version and no options (00_scope R2). -/
def Config.isaName : String := "tpm"

/-- FREE VALUE `NAN_RESULT(op, a, b)`: the NaN an operation delivers (R9, R160 (d), 93 item 1; log entry 7).
It has no body: no claim can depend on the sign or payload. -/
opaque Config.nanResult : ArithOp → Word → Word → NanPattern

end Sys2Proof
end

