-- ==== Sys2Proof/Machine/Ieee.lean ====
section
/-!
DEFINITION. IEEE-754 binary64 on 64-bit patterns (00_scope R12, R15; 42_arithmetic R160). Every finite binary64 number
is a whole multiple of 2^-1074, so a finite number is held as its sign and that multiple, a natural number; sums are
exact, products and quotients are exact fractions, and one function rounds at the end (nearest, ties to even).
-/

namespace Sys2Proof.Machine

/-- A pattern read as a binary64 number. The magnitude of a finite number is in units of 2^-1074. -/
inductive Datum where
  | nan
  | infinite (neg : Bool)
  | finite (neg : Bool) (mag : Nat)
deriving DecidableEq, Repr

/-- 2^1074: how many units of 2^-1074 make 1. Irreducible, so that no tactic writes the number out. -/
@[irreducible] def unitsPerOne : Nat := 2 ^ 1074

/-- The biased exponent, bits 62:52 (R12). -/
def exponentField (v : Word) : Nat := (v.extractLsb' 52 11).toNat

/-- The fraction, bits 51:0 (R12). -/
def fractionField (v : Word) : Nat := (v.extractLsb' 0 52).toNat

/-- `f64(v)` (R12); subnormals are kept (R160 (b)). -/
def f64 (v : Word) : Datum :=
  if exponentField v = 2047 then
    if fractionField v = 0 then .infinite v.msb else .nan
  else if exponentField v = 0 then .finite v.msb (fractionField v)
  else .finite v.msb ((2 ^ 52 + fractionField v) * 2 ^ (exponentField v - 1))

/-- A pattern is a NaN: bits 62:52 all ones, bits 51:0 not zero (R160 (d)). -/
def isNaN (v : Word) : Bool := decide (exponentField v = 2047) && decide (fractionField v ≠ 0)

/-- The pattern of a sign and an encoded magnitude (bits 62:0). -/
def withSign (neg : Bool) (mag : Nat) : Word := BitVec.ofNat 64 (if neg then 2 ^ 63 + mag else mag)

/-- The encoded magnitude of infinity. -/
def infinityBits : Nat := 2047 * 2 ^ 52

/-- Infinity of a sign. -/
def infinity (neg : Bool) : Word := withSign neg infinityBits

/-- The pattern of an open NaN (R160 (d)). -/
def NanPattern.toWord (n : NanPattern) : Word :=
  withSign n.sign (infinityBits + (n.fractionLessOne.val + 1))

/-- The whole number nearest to `p / q`, an exact half going to the even neighbour. -/
def nearestEven (p q : Nat) : Nat :=
  if 2 * (p % q) < q then p / q
  else if q < 2 * (p % q) then p / q + 1
  else p / q + (p / q) % 2

/-- The encoded magnitude of the binary64 number nearest to `p / q` units of 2^-1074, ties to even (R160 (a)). The
spacing of binary64 numbers around `p / q` is `2^shift` units; a carry out of the significand moves into the
exponent field by itself, and what passes the largest finite number is infinity (R160 (c)). -/
def roundMag (p q : Nat) : Nat :=
  let shift := (p / q).log2 - 52
  min (shift * 2 ^ 52 + nearestEven p (q * 2 ^ shift)) infinityBits

/-- `-f64(v)`, of use for subtraction. -/
def Datum.negate : Datum → Datum
  | .nan => .nan
  | .infinite s => .infinite (!s)
  | .finite s m => .finite (!s) m

/-- `+f` (R15, R160): none is a NaN result. A zero sum of opposite signs is +0 (R160 (e)). -/
def ieeeAdd : Datum → Datum → Option Word
  | .nan, _ => none
  | _, .nan => none
  | .infinite s, .infinite t => if s = t then some (infinity s) else none
  | .infinite s, .finite _ _ => some (infinity s)
  | .finite _ _, .infinite t => some (infinity t)
  | .finite s m, .finite t n =>
    if s = t then some (withSign s (roundMag (m + n) 1))
    else if m = n then some (withSign false 0)
    else if n < m then some (withSign s (roundMag (m - n) 1))
    else some (withSign t (roundMag (n - m) 1))

/-- `-f` (R15, R160): the sum with the negated second operand. -/
def ieeeSub (a b : Datum) : Option Word := ieeeAdd a b.negate

/-- `*f` (R15, R160): none is a NaN result. -/
def ieeeMul : Datum → Datum → Option Word
  | .nan, _ => none
  | _, .nan => none
  | .infinite s, .infinite t => some (infinity (s ^^ t))
  | .infinite s, .finite t n => if n = 0 then none else some (infinity (s ^^ t))
  | .finite s m, .infinite t => if m = 0 then none else some (infinity (s ^^ t))
  | .finite s m, .finite t n => some (withSign (s ^^ t) (roundMag (m * n) unitsPerOne))

/-- `/f` (R15, R160, R165): none is a NaN result. -/
def ieeeDiv : Datum → Datum → Option Word
  | .nan, _ => none
  | _, .nan => none
  | .infinite _, .infinite _ => none
  | .infinite s, .finite t _ => some (infinity (s ^^ t))
  | .finite s _, .infinite t => some (withSign (s ^^ t) 0)
  | .finite s m, .finite t n =>
    if n = 0 then
      if m = 0 then none else some (infinity (s ^^ t))
    else some (withSign (s ^^ t) (roundMag (m * unitsPerOne) n))

/-- `fres` (R160): the result's pattern, or the open NaN of the operation and its operands. -/
def fres (op : ArithOp) (a b : Word) : Option Word → Word
  | some w => w
  | none => NanPattern.toWord (Config.nanResult op a b)

/-- The value ADD writes (R162). -/
def fadd (a b : Word) : Word := fres .add a b (ieeeAdd (f64 a) (f64 b))

/-- The value SUB writes (R163). -/
def fsub (a b : Word) : Word := fres .sub a b (ieeeSub (f64 a) (f64 b))

/-- The value MUL writes (R164). -/
def fmul (a b : Word) : Word := fres .mul a b (ieeeMul (f64 a) (f64 b))

/-- The value DIV writes (R165). -/
def fdiv (a b : Word) : Word := fres .div a b (ieeeDiv (f64 a) (f64 b))

/-- `bits(i2f(s64(v)))`, the value CON writes (R166). -/
def i2f (v : Word) : Word := withSign v.msb (roundMag (v.toInt.natAbs * unitsPerOne) 1)

end Sys2Proof.Machine
end

