-- ==== Sys2Proof/Machine/Params.lean ====
section
/-!
DEFINITION. The parameters of this hardware with the values the spec gives them (00_scope R9, 20_memory R50 to R52).
-/

namespace Sys2Proof.Machine

/-- `MEM_WORDS`: the memory capacity, in words (R50; 90_conflicts C1, 92_eei_decisions D6). -/
def memWords : Nat := 50001

/-- `MEM_TOP`: the highest word address (R50; D6). -/
def memTop : Nat := memWords - 1

/-- The highest address of the code zone, which starts at 0 (R51). -/
def codeTop : Nat := 30000

/-- `stackMemBottom`: the exclusive lower bound of the stack slots, `sp` of a full stack (R52). -/
def stackMemBottom : Nat := 30000

/-- `stackMemTop`: the highest stack slot, `sp` of an empty stack (R52). -/
def stackMemTop : Nat := 40000

/-- `varMemBottom` (R52). -/
def varMemBottom : Nat := 40001

/-- `varMemTop` (R52). -/
def varMemTop : Nat := 50000

/-- `SP_RESET` (10_state R32; 90_conflicts C4). -/
def spReset : Word := 40000

/-- `MAX_PROGRAM`: the longest loadable program, in words (70_reset R272). -/
def maxProgram : Nat := 30001

/-- What a memory word nothing has written reads as: the reset contents (10_state R32). -/
def memUnlisted : Word := 0

/-- The width in bits of the address field of an instruction word (00_scope R9, 30_encoding R87; D3). Reducible, and
unfolded by simp, so that a `BitVec addrBits` is a `BitVec 32` to every lemma. -/
@[simp] abbrev addrBits : Nat := 32

end Sys2Proof.Machine
end

