-- ==== Sys2Proof/Syntax.lean ====
section
/-!
DEFINITION. The instruction set as syntax: one constructor of `Instr` per row of the opcode table (00_scope R3,
30_encoding R91, R95). An instruction carries exactly the fields its opcode reads (R91), as raw field values:
the decoder checks none of them (R88), the handlers do (R97).
-/

namespace Sys2Proof

/-- A 4-bit narrow register selector, field `na` or `nb` (30_encoding R84, R85). -/
abbrev NarrowSel := BitVec 4

/-- The 5-bit full register selector, field `fr` (30_encoding R86). -/
abbrev FullSel := BitVec 5

/-- The address field, 32 bits wide (30_encoding R87). -/
abbrev AddrField := BitVec Machine.addrBits

/-- The 21 instructions (00_scope R3), each with the fields 30_encoding R91 lists for it. -/
inductive Instr where
  | halt
  | inN
  | outN
  | inS (addr : AddrField)
  | outS (addr : AddrField)
  | add (na nb : NarrowSel)
  | sub (na nb : NarrowSel)
  | mul (na nb : NarrowSel)
  | div (na nb : NarrowSel)
  | con (fr : FullSel)
  | push (fr : FullSel)
  | pop (fr : FullSel)
  | ld (fr : FullSel) (addr : AddrField)
  | st (fr : FullSel) (addr : AddrField)
  | jmp (addr : AddrField)
  | jgr (addr : AddrField)
  | jge (addr : AddrField)
  | jeq (addr : AddrField)
  | jne (addr : AddrField)
  | jle (addr : AddrField)
  | jls (addr : AddrField)
deriving DecidableEq, Repr

/-- The 21 opcodes as names, in the order of 30_encoding R95. -/
inductive Mnemonic where
  | halt | inN | outN | inS | outS
  | add | sub | mul | div | con
  | push | pop | ld | st
  | jmp | jgr | jge | jeq | jne | jle | jls
deriving DecidableEq, Repr

/-- Every opcode, in the order of 30_encoding R95. -/
def Mnemonic.all : List Mnemonic :=
  [.halt, .inN, .outN, .inS, .outS, .add, .sub, .mul, .div, .con,
   .push, .pop, .ld, .st, .jmp, .jgr, .jge, .jeq, .jne, .jle, .jls]

/-- The opcode of an instruction. -/
def Instr.mnemonic : Instr → Mnemonic
  | .halt => .halt
  | .inN => .inN
  | .outN => .outN
  | .inS _ => .inS
  | .outS _ => .outS
  | .add _ _ => .add
  | .sub _ _ => .sub
  | .mul _ _ => .mul
  | .div _ _ => .div
  | .con _ => .con
  | .push _ => .push
  | .pop _ => .pop
  | .ld _ _ => .ld
  | .st _ _ => .st
  | .jmp _ => .jmp
  | .jgr _ => .jgr
  | .jge _ => .jge
  | .jeq _ => .jeq
  | .jne _ => .jne
  | .jle _ => .jle
  | .jls _ => .jls

end Sys2Proof
end

