-- ==== Sys2Proof/Decode.lean ====
section
/-!
DEFINITION. The instruction decoder and encoder (30_encoding), the opcode numbering, and the assembly notation the
spec writes its examples in (R104). Fields are recovered by rotating the whole word and masking (R81), placed by the
inverse rotation (R89). Rotations and opcode numbers are the spec's own choice (R99; log entry 14).
-/

namespace Sys2Proof

/-! ### Rotation primitives (00_scope R11) -/

/-- Rotate-left of a word by `r` places. -/
def rotl64 (w : Word) (r : Nat) : Word := w.rotateLeft r

/-- Rotate-right: rotate-left by the complement. -/
def rotr64 (w : Word) (r : Nat) : Word := rotl64 w ((64 - r) % 64)

/-- `mask(n) = 2^n - 1`. -/
def maskBits (n : Nat) : Word := BitVec.ofNat 64 (2 ^ n - 1)

/-! ### Configuration constants of the encoding (00_scope R9, 30_encoding R82, R99) -/

/-- `ROT_OPCODE` -/
def rotOpcode : Nat := 8
/-- `ROT_NARROW_A` -/
def rotNarrowA : Nat := 12
/-- `ROT_NARROW_B` -/
def rotNarrowB : Nat := 16
/-- `ROT_FULL` -/
def rotFull : Nat := 21
/-- `ROT_ADDR` -/
def rotAddr : Nat := 0

/-- The opcode numbering, the one table it stands in (30_encoding R95). -/
def Mnemonic.opcode : Mnemonic → BitVec 8
  | .halt => 0x01
  | .inN => 0x02
  | .outN => 0x03
  | .inS => 0x04
  | .outS => 0x05
  | .add => 0x06
  | .sub => 0x07
  | .mul => 0x08
  | .div => 0x09
  | .con => 0x0A
  | .push => 0x0B
  | .pop => 0x0C
  | .ld => 0x0D
  | .st => 0x0E
  | .jmp => 0x0F
  | .jgr => 0x10
  | .jge => 0x11
  | .jeq => 0x12
  | .jne => 0x13
  | .jle => 0x14
  | .jls => 0x15

/-! ### Field recovery (30_encoding R81, R83 to R87) -/

/-- `field(w, r, n)`: the low `n` bits of `w` rotated left by `r`, as a word (R81). -/
def fieldWord (w : Word) (r n : Nat) : Word := rotl64 w r &&& maskBits n

/-- R83. -/
def decodeOpcode (w : Word) : BitVec 8 := (fieldWord w rotOpcode 8).setWidth 8

/-- R84 with `rotNarrowA`, R85 with `rotNarrowB`. -/
def decodeNarrowOperand (w : Word) (rot : Nat) : NarrowSel := (fieldWord w rot 4).setWidth 4

/-- R86. -/
def decodeFullRegister (w : Word) : FullSel := (fieldWord w rotFull 5).setWidth 5

/-- The address field of R87; the handlers zero-extend it to 64 bits where they use it. -/
def decodeAddressField (w : Word) : AddrField := (fieldWord w rotAddr Machine.addrBits).setWidth Machine.addrBits

/-! ### Decoding -/

/-- Why a word is no instruction: its opcode is unassigned (30_encoding R96). -/
inductive DecodeError where
  | invalidOpcode (opcode : BitVec 8)
deriving DecidableEq, Repr

/-- The opcode with a given number, if the number is assigned (R95, R96). -/
def Mnemonic.ofOpcode (op : BitVec 8) : Option Mnemonic :=
  Mnemonic.all.find? (fun m => m.opcode == op)

/-- The instruction of an opcode, with the fields R91 lists for it taken from the word. Every other bit of the
word is ignored (R92). -/
def Mnemonic.fromWord (m : Mnemonic) (w : Word) : Instr :=
  match m with
  | .halt => .halt
  | .inN => .inN
  | .outN => .outN
  | .inS => .inS (decodeAddressField w)
  | .outS => .outS (decodeAddressField w)
  | .add => .add (decodeNarrowOperand w rotNarrowA) (decodeNarrowOperand w rotNarrowB)
  | .sub => .sub (decodeNarrowOperand w rotNarrowA) (decodeNarrowOperand w rotNarrowB)
  | .mul => .mul (decodeNarrowOperand w rotNarrowA) (decodeNarrowOperand w rotNarrowB)
  | .div => .div (decodeNarrowOperand w rotNarrowA) (decodeNarrowOperand w rotNarrowB)
  | .con => .con (decodeFullRegister w)
  | .push => .push (decodeFullRegister w)
  | .pop => .pop (decodeFullRegister w)
  | .ld => .ld (decodeFullRegister w) (decodeAddressField w)
  | .st => .st (decodeFullRegister w) (decodeAddressField w)
  | .jmp => .jmp (decodeAddressField w)
  | .jgr => .jgr (decodeAddressField w)
  | .jge => .jge (decodeAddressField w)
  | .jeq => .jeq (decodeAddressField w)
  | .jne => .jne (decodeAddressField w)
  | .jle => .jle (decodeAddressField w)
  | .jls => .jls (decodeAddressField w)

/-- Decode an instruction word: total on all 2^64 words, and the opcode alone can be illegal (R88, R96; 40_dispatch
R112, R113). -/
def decode (w : Word) : Except DecodeError Instr :=
  match Mnemonic.ofOpcode (decodeOpcode w) with
  | some m => .ok (m.fromWord w)
  | none => .error (.invalidOpcode (decodeOpcode w))

/-! ### Encoding (30_encoding R89) -/

/-- Place the five fields by the inverse rotations; the reserved bits 42:32 are 0 (R89). -/
def encodeFields (op : BitVec 8) (na nb : NarrowSel) (fr : FullSel) (addr : AddrField) : Word :=
  rotr64 (op.setWidth 64) rotOpcode
    ||| rotr64 (na.setWidth 64) rotNarrowA
    ||| rotr64 (nb.setWidth 64) rotNarrowB
    ||| rotr64 (fr.setWidth 64) rotFull
    ||| rotr64 (addr.setWidth 64) rotAddr

/-- The canonical word of an instruction: every field it does not carry is 0 (R89, R104). -/
def encode (i : Instr) : Word :=
  let op := i.mnemonic.opcode
  match i with
  | .halt => encodeFields op 0 0 0 0
  | .inN => encodeFields op 0 0 0 0
  | .outN => encodeFields op 0 0 0 0
  | .inS a => encodeFields op 0 0 0 a
  | .outS a => encodeFields op 0 0 0 a
  | .add na nb => encodeFields op na nb 0 0
  | .sub na nb => encodeFields op na nb 0 0
  | .mul na nb => encodeFields op na nb 0 0
  | .div na nb => encodeFields op na nb 0 0
  | .con r => encodeFields op 0 0 r 0
  | .push r => encodeFields op 0 0 r 0
  | .pop r => encodeFields op 0 0 r 0
  | .ld r a => encodeFields op 0 0 r a
  | .st r a => encodeFields op 0 0 r a
  | .jmp a => encodeFields op 0 0 0 a
  | .jgr a => encodeFields op 0 0 0 a
  | .jge a => encodeFields op 0 0 0 a
  | .jeq a => encodeFields op 0 0 0 a
  | .jne a => encodeFields op 0 0 0 a
  | .jle a => encodeFields op 0 0 0 a
  | .jls a => encodeFields op 0 0 0 a

/-- The bits of the word an opcode reads: its opcode field and the fields R91 lists for it. The other bits are
don't-care (R92). -/
def Mnemonic.readMask : Mnemonic → Word
  | .halt => 0xFF00_0000_0000_0000
  | .inN => 0xFF00_0000_0000_0000
  | .outN => 0xFF00_0000_0000_0000
  | .inS => 0xFF00_0000_FFFF_FFFF
  | .outS => 0xFF00_0000_FFFF_FFFF
  | .add => 0xFFFF_0000_0000_0000
  | .sub => 0xFFFF_0000_0000_0000
  | .mul => 0xFFFF_0000_0000_0000
  | .div => 0xFFFF_0000_0000_0000
  | .con => 0xFF00_F800_0000_0000
  | .push => 0xFF00_F800_0000_0000
  | .pop => 0xFF00_F800_0000_0000
  | .ld => 0xFF00_F800_FFFF_FFFF
  | .st => 0xFF00_F800_FFFF_FFFF
  | .jmp => 0xFF00_0000_FFFF_FFFF
  | .jgr => 0xFF00_0000_FFFF_FFFF
  | .jge => 0xFF00_0000_FFFF_FFFF
  | .jeq => 0xFF00_0000_FFFF_FFFF
  | .jne => 0xFF00_0000_FFFF_FFFF
  | .jle => 0xFF00_0000_FFFF_FFFF
  | .jls => 0xFF00_0000_FFFF_FFFF

/-- The host's entry: the instruction read from the word whose bits are `w`, of which the table gives the low
`nbits`. An instruction is one word, fetched whole (R80), so there is no byte order to lay out (20_memory R55). -/
def decodeTableWord (nbits w : Nat) : Option Instr :=
  match decode (BitVec.ofNat 64 (w % 2 ^ nbits)) with
  | .ok i => some i
  | .error _ => none

/-! ### Assembly notation of the spec's examples (30_encoding R104, R105) -/

/-- The mnemonic as the spec spells it (R95). -/
def Mnemonic.text : Mnemonic → String
  | .halt => "HALT"
  | .inN => "IN_N"
  | .outN => "OUT_N"
  | .inS => "IN_S"
  | .outS => "OUT_S"
  | .add => "ADD"
  | .sub => "SUB"
  | .mul => "MUL"
  | .div => "DIV"
  | .con => "CON"
  | .push => "PUSH"
  | .pop => "POP"
  | .ld => "LD"
  | .st => "ST"
  | .jmp => "JMP"
  | .jgr => "JGR"
  | .jge => "JGE"
  | .jeq => "JEQ"
  | .jne => "JNE"
  | .jle => "JLE"
  | .jls => "JLS"

/-- A register in the notation: `r0` .. `r7`, `ip`, `sp`, `acc`, or `x<n>` for a selector that names none (R104). -/
def selectorText (n : Nat) : String :=
  if n < 8 then "r" ++ toString n
  else if n = 8 then "ip"
  else if n = 9 then "sp"
  else if n = 10 then "acc"
  else "x" ++ toString n

/-- One instruction in the notation of R104. -/
def Instr.text (i : Instr) : String :=
  let name := i.mnemonic.text
  match i with
  | .halt => name
  | .inN => name
  | .outN => name
  | .inS a => name ++ " " ++ toString a.toNat
  | .outS a => name ++ " " ++ toString a.toNat
  | .add na nb => name ++ " " ++ selectorText na.toNat ++ ", " ++ selectorText nb.toNat
  | .sub na nb => name ++ " " ++ selectorText na.toNat ++ ", " ++ selectorText nb.toNat
  | .mul na nb => name ++ " " ++ selectorText na.toNat ++ ", " ++ selectorText nb.toNat
  | .div na nb => name ++ " " ++ selectorText na.toNat ++ ", " ++ selectorText nb.toNat
  | .con r => name ++ " " ++ selectorText r.toNat
  | .push r => name ++ " " ++ selectorText r.toNat
  | .pop r => name ++ " " ++ selectorText r.toNat
  | .ld r a => name ++ " " ++ selectorText r.toNat ++ ", " ++ toString a.toNat
  | .st r a => name ++ " " ++ selectorText r.toNat ++ ", " ++ toString a.toNat
  | .jmp a => name ++ " " ++ toString a.toNat
  | .jgr a => name ++ " " ++ toString a.toNat
  | .jge a => name ++ " " ++ toString a.toNat
  | .jeq a => name ++ " " ++ toString a.toNat
  | .jne a => name ++ " " ++ toString a.toNat
  | .jle a => name ++ " " ++ toString a.toNat
  | .jls a => name ++ " " ++ toString a.toNat

/-- A line of the notation, after labels are resolved: one instruction or one `.word` (R104, R105). -/
inductive AsmLine where
  | instr (i : Instr)
  | word (w : Word)
deriving DecidableEq, Repr

/-- The word a line stands for (R105). -/
def AsmLine.toWord : AsmLine → Word
  | .instr i => encode i
  | .word w => w

/-- The words of a program written in the notation, the first at address 0 (R104, 70_reset R272). -/
def assemble (lines : List AsmLine) : List Word := lines.map AsmLine.toWord

end Sys2Proof
end

