-- ==== Sys2Proof/Machine/State.lean ====
section
/-!
DEFINITION. The state of the machine as plain data (10_state), its value at reset (R32), and the reasons a step of the
model can stop. A fault of the SPEC is no stop of the model: it is a next state whose run state is Faulted
(60_exceptions R246; log entry 3).
-/

namespace Sys2Proof.Machine

/-- The 11 registers by name; their indices are 0 to 10 in this order (10_state R20). -/
inductive Reg where
  | r0 | r1 | r2 | r3 | r4 | r5 | r6 | r7
  | ip | sp | acc
deriving DecidableEq, Repr

/-- The register file: 11 raw 64-bit patterns (10_state R20, R21). -/
structure RegFile where
  r0 : Word
  r1 : Word
  r2 : Word
  r3 : Word
  r4 : Word
  r5 : Word
  r6 : Word
  r7 : Word
  /-- index 8: the address of the executing instruction (R24) -/
  ip : Word
  /-- index 9: the address of the next free stack slot (R25) -/
  sp : Word
  /-- index 10: the accumulator (R26) -/
  acc : Word
deriving DecidableEq, Repr

/-- The memory bank: the words that differ from what an unlisted address reads as, by word address, strictly rising.
The unit of addressing is the 64-bit word, so a cell is a word (20_memory R50, R55; log entry 1). -/
abbrev Memory := List (Nat × Word)

/-- The run states of 10_state R29. -/
inductive RunState where
  | ready | running | halted | faulted
deriving DecidableEq, Repr

/-- The fault record: kind, cause and recorded information in one value (10_state R30, 60_exceptions R240). -/
inductive FaultRecord where
  /-- `IOFault(Malformed)` -/
  | malformed
  /-- `IOFault(EndOfInput)` -/
  | endOfInput
  /-- `MemoryFault(StackFull)(sp)` -/
  | stackFull (sp : Word)
  /-- `MemoryFault(StackEmpty)(sp)` -/
  | stackEmpty (sp : Word)
  /-- `MemoryFault(UnknownRegister)(selector value)` -/
  | unknownRegister (selector : Nat)
  /-- `MemoryFault(OutOfBounds)(address)` -/
  | outOfBounds (addr : Word)
  /-- `MemoryFault(FetchOutOfBounds)(ip)` -/
  | fetchOutOfBounds (ip : Word)
  /-- `MemoryFault(BadStackPointer)(sp)` -/
  | badStackPointer (sp : Word)
  /-- `InvalidOpcode(opcode byte)` -/
  | invalidOpcode (opcode : BitVec 8)
deriving DecidableEq, Repr

/-- What the engine is blocked on while it waits for the host (10_state R31 (b)). -/
inductive InputRequest where
  | num | str
deriving DecidableEq, Repr

/-- An answer of the host to `InNum()` (10_state R41). -/
inductive NumAnswer where
  | value (v : Word)
  | malformed
  | endOfInput
deriving DecidableEq, Repr

/-- An answer of the host to `InStr()` (10_state R42). -/
inductive StrAnswer where
  | chars (cs : List Word)
  | malformed
  | endOfInput
deriving DecidableEq, Repr

/-- One consumed input answer (10_state R45). -/
inductive InputEvent where
  | num (a : NumAnswer)
  | str (a : StrAnswer)
deriving DecidableEq, Repr

/-- One output transaction (10_state R43, R44). -/
inductive OutputEvent where
  | num (v : Word)
  | str (cs : List Word)
deriving DecidableEq, Repr

/-- Everything the spec gives the machine (10_state), and the host's answers still to come. -/
structure State where
  /-- the register file (R20) -/
  regs : RegFile
  /-- the memory bank (20_memory R50) -/
  mem : Memory
  /-- the run state; none until a program is loaded (R29, R32) -/
  runState : Option RunState
  /-- the fault record; empty except in Faulted (R30) -/
  faultRecord : Option FaultRecord
  /-- the pending input wait (R31 (b)) -/
  inputWait : Option InputRequest
  /-- FREE INPUT: the host's answers to the next `InNum()` requests, oldest first (R41; log entry 5) -/
  numAnswers : List NumAnswer
  /-- FREE INPUT: the host's answers to the next `InStr()` requests, oldest first (R42; log entry 5) -/
  strAnswers : List StrAnswer
  /-- the input consumed so far, oldest first (R45) -/
  consumed : List InputEvent
  /-- the output produced so far, oldest first (R45) -/
  output : List OutputEvent
  /-- whether the host has discarded the session (60_exceptions R249; log entry 10) -/
  discarded : Bool
deriving DecidableEq, Repr

/-- Why a step of the MODEL stops. No instruction's meaning stops so. -/
inductive Fault where
  /-- Raised by `step` alone, on a session the host has discarded: there is no machine left to step (60_exceptions
  R249, 93 item 13, treatment `stuck`; log entry 10). Safe: nothing is claimed of a discarded session. -/
  | sessionDiscarded
deriving DecidableEq, Repr

/-- What the model refuses. No instruction's meaning refuses. -/
inductive Refusal where
  /-- An instruction without a meaning yet, in its arm of `exec`; no arm uses it. Safe. -/
  | notModelled (mnemonic : String)
  /-- Raised by the host's load transaction for a program of more than 30001 words: the spec refuses such a load
  (70_reset R272). Safe. -/
  | programTooLong (length : Nat)
  /-- Raised by a host transaction in a run state that does not allow it (10_state R40, 70_reset R271, R273; log
  entry 9). Safe. -/
  | hostTransactionNotAllowed
deriving DecidableEq, Repr

/-- The machine right after reset, before load and presets (10_state R32, 70_reset R270). -/
def State.reset : State where
  regs :=
    { r0 := 0, r1 := 0, r2 := 0, r3 := 0, r4 := 0, r5 := 0, r6 := 0, r7 := 0
      ip := 0, sp := spReset, acc := 0 }
  mem := []
  runState := none
  faultRecord := none
  inputWait := none
  numAnswers := []
  strAnswers := []
  consumed := []
  output := []
  discarded := false

end Sys2Proof.Machine
end

