-- ==== Sys2Proof/Machine/Ops.lean ====
section
/-!
DEFINITION. The named operations over registers, memory, the ports and the run state. Fault entry is ONE operation,
`State.raise` (60_exceptions R246); there is no return from a fault (R248).
-/

namespace Sys2Proof.Machine

/-- The outcome of a step or of a meaning. -/
abbrev Result := Host.Outcome State Fault Refusal

/-! ### Registers (10_state R20, R21; 00_scope R13) -/

/-- `x[i]`. -/
def RegFile.read (f : RegFile) : Reg → Word
  | .r0 => f.r0
  | .r1 => f.r1
  | .r2 => f.r2
  | .r3 => f.r3
  | .r4 => f.r4
  | .r5 => f.r5
  | .r6 => f.r6
  | .r7 => f.r7
  | .ip => f.ip
  | .sp => f.sp
  | .acc => f.acc

/-- `x[i] <- v`. -/
def RegFile.write (f : RegFile) (r : Reg) (v : Word) : RegFile :=
  match r with
  | .r0 => { f with r0 := v }
  | .r1 => { f with r1 := v }
  | .r2 => { f with r2 := v }
  | .r3 => { f with r3 := v }
  | .r4 => { f with r4 := v }
  | .r5 => { f with r5 := v }
  | .r6 => { f with r6 := v }
  | .r7 => { f with r7 := v }
  | .ip => { f with ip := v }
  | .sp => { f with sp := v }
  | .acc => { f with acc := v }

/-- `x[i]` of the machine. -/
def State.read (s : State) (r : Reg) : Word := s.regs.read r

/-- `x[i] <- v` of the machine. -/
def State.write (s : State) (r : Reg) (v : Word) : State := { s with regs := s.regs.write r v }

/-- `ip <- ip + 1`, modulo 2^64 (10_state R24). -/
def State.advance (s : State) : State := s.write .ip (s.read .ip + 1)

/-- A value moved into a register by POP or LD: a destination `ip` is a control transfer, with no `+ 1`
(40_dispatch R115 (d)). -/
def State.moveTo (s : State) (d : Reg) (v : Word) : State :=
  if d = .ip then s.write .ip v else (s.write d v).advance

/-! ### Memory (20_memory R54) -/

/-- The word at an address; an unlisted word reads as it did at reset. -/
def Memory.read : Memory → Nat → Word
  | [], _ => memUnlisted
  | (k, v) :: rest, a => if k = a then v else Memory.read rest a

/-- Replace the word at an address whole, keeping the canonical form. -/
def Memory.write : Memory → Nat → Word → Memory
  | [], a, v => if v = memUnlisted then [] else [(a, v)]
  | (k, x) :: rest, a, v =>
    if a < k then
      if v = memUnlisted then (k, x) :: rest else (a, v) :: (k, x) :: rest
    else if a = k then
      if v = memUnlisted then rest else (a, v) :: rest
    else (k, x) :: Memory.write rest a v

/-- Replace the words at consecutive addresses, in order. -/
def Memory.writeAll : Memory → Nat → List Word → Memory
  | m, _, [] => m
  | m, a, v :: vs => Memory.writeAll (Memory.write m a v) (a + 1) vs

/-- The words at `n` consecutive addresses, in order. -/
def Memory.readAll (m : Memory) : Nat → Nat → List Word
  | _, 0 => []
  | a, n + 1 => Memory.read m a :: Memory.readAll m (a + 1) n

/-- The canonical form above an address `low`: strictly rising addresses from `low` to `memTop`, no entry equal to
what an unlisted address reads as. -/
def Memory.wfFrom : Nat → Memory → Bool
  | _, [] => true
  | low, (k, v) :: rest =>
    decide (low ≤ k) && decide (k ≤ memTop) && decide (v ≠ memUnlisted) && Memory.wfFrom (k + 1) rest

/-- The canonical form of memory (log entry 1). -/
def Memory.wf (m : Memory) : Bool := Memory.wfFrom 0 m

/-- `MemRead(addr, 1)` (R54). -/
def State.memRead (s : State) (a : Word) : Except FaultRecord Word :=
  if a.toNat > memTop then .error (.outOfBounds a) else .ok (Memory.read s.mem a.toNat)

/-- `MemWrite(addr, 1, v)` (R54). -/
def State.memWrite (s : State) (a : Word) (v : Word) : Except FaultRecord State :=
  if a.toNat > memTop then .error (.outOfBounds a)
  else .ok { s with mem := Memory.write s.mem a.toNat v }

/-- The words of a string written one after another with `MemWrite` (41_system_io R145). -/
def State.memWriteAll : State → Word → List Word → Except FaultRecord State
  | s, _, [] => .ok s
  | s, a, c :: cs => do
    let t ← s.memWrite a c
    State.memWriteAll t (a + 1) cs

/-- The words of a string read one after another with `MemRead` (41_system_io R147). -/
def State.memReadAll (s : State) : Word → Nat → Except FaultRecord (List Word)
  | _, 0 => .ok []
  | a, n + 1 => do
    let c ← s.memRead a
    let cs ← State.memReadAll s (a + 1) n
    pure (c :: cs)

/-- Fetch the word at `ip`, from any zone (40_dispatch R111). -/
def State.fetch (s : State) : Except FaultRecord Word :=
  if (s.read .ip).toNat > memTop then .error (.fetchOutOfBounds (s.read .ip))
  else .ok (Memory.read s.mem (s.read .ip).toNat)

/-- Fetch and decode: the instruction at `ip`, or the fault of the fetch or of the dispatch (40_dispatch R111 to
R113). -/
def State.nextInstr (s : State) : Except FaultRecord Instr :=
  match s.fetch with
  | .error f => .error f
  | .ok w =>
    match decode w with
    | .ok i => .ok i
    | .error (.invalidOpcode op) => .error (.invalidOpcode op)

/-! ### Fault entry and halting -/

/-- Fault entry, exactly: the run state and the fault record, and nothing else (60_exceptions R246). -/
def State.raise (s : State) (f : FaultRecord) : State :=
  { s with runState := some .faulted, faultRecord := some f }

/-- The end of a handler: its result, or fault entry on the state it started from (40_dispatch R116). -/
def State.finish (s : State) (r : Except FaultRecord State) : Result :=
  match r with
  | .ok t => .next t
  | .error f => .next (s.raise f)

/-- `halt`: the run state Halted (41_system_io R140). -/
def State.enterHalted (s : State) : State := { s with runState := some .halted }

/-! ### Ports (10_state R41 to R45) -/

/-- The engine blocks on an input request (10_state R31 (b), 40_dispatch R119). -/
def State.await (s : State) (r : InputRequest) : State := { s with inputWait := some r }

/-- A numeric answer is consumed, and the wait is over (R41, R45). -/
def State.consumeNum (s : State) (a : NumAnswer) (rest : List NumAnswer) : State :=
  { s with inputWait := none, numAnswers := rest, consumed := s.consumed ++ [.num a] }

/-- A string answer is consumed, and the wait is over (R42, R45). -/
def State.consumeStr (s : State) (a : StrAnswer) (rest : List StrAnswer) : State :=
  { s with inputWait := none, strAnswers := rest, consumed := s.consumed ++ [.str a] }

/-- An output transaction; it always completes (R43, R44). -/
def State.emit (s : State) (e : OutputEvent) : State := { s with output := s.output ++ [e] }

/-! ### The fault record as the status port numbers it (60_exceptions R240) -/

/-- The kinds of R240. -/
inductive FaultKind where
  | ioFault | memoryFault | invalidOpcode
deriving DecidableEq, Repr

/-- The kind of a fault. -/
def FaultRecord.kind : FaultRecord → FaultKind
  | .malformed => .ioFault
  | .endOfInput => .ioFault
  | .stackFull _ => .memoryFault
  | .stackEmpty _ => .memoryFault
  | .unknownRegister _ => .memoryFault
  | .outOfBounds _ => .memoryFault
  | .fetchOutOfBounds _ => .memoryFault
  | .badStackPointer _ => .memoryFault
  | .invalidOpcode _ => .invalidOpcode

/-- The kind's number. -/
def FaultKind.code : FaultKind → Nat
  | .ioFault => 1
  | .memoryFault => 2
  | .invalidOpcode => 3

/-- The cause's number within its kind. -/
def FaultRecord.causeCode : FaultRecord → Nat
  | .malformed => 1
  | .endOfInput => 2
  | .stackFull _ => 1
  | .stackEmpty _ => 2
  | .unknownRegister _ => 3
  | .outOfBounds _ => 4
  | .fetchOutOfBounds _ => 5
  | .badStackPointer _ => 6
  | .invalidOpcode _ => 0

/-- The information recorded. -/
def FaultRecord.info : FaultRecord → Option Nat
  | .malformed => none
  | .endOfInput => none
  | .stackFull sp => some sp.toNat
  | .stackEmpty sp => some sp.toNat
  | .unknownRegister i => some i
  | .outOfBounds a => some a.toNat
  | .fetchOutOfBounds ip => some ip.toNat
  | .badStackPointer sp => some sp.toNat
  | .invalidOpcode op => some op.toNat

/-- The kind code the status port shows; 0 means no fault (R240). -/
def State.faultKindCode (s : State) : Nat :=
  match s.faultRecord with
  | none => 0
  | some f => f.kind.code

end Sys2Proof.Machine
end

