-- ==== Sys2Proof/Machine/Operands.lean ====
section
/-!
DEFINITION. Operand forms: register selectors with their check (40_dispatch R117), the address field (30_encoding R87)
and the zone checks (20_memory R51, R52).
-/

namespace Sys2Proof.Machine

/-- The register a selector value names, if it names one (10_state R22, 30_encoding R93). -/
def Reg.ofIndex : Nat → Option Reg
  | 0 => some .r0
  | 1 => some .r1
  | 2 => some .r2
  | 3 => some .r3
  | 4 => some .r4
  | 5 => some .r5
  | 6 => some .r6
  | 7 => some .r7
  | 8 => some .ip
  | 9 => some .sp
  | 10 => some .acc
  | _ => none

/-- The selector check: a value that names no register raises `UnknownRegister` (R117, 60_exceptions R241). -/
def checkSelector (i : Nat) : Except FaultRecord Reg :=
  match Reg.ofIndex i with
  | some r => .ok r
  | none => .error (.unknownRegister i)

/-- `regNarrow(i)` (R117). -/
def State.regNarrow (s : State) (i : NarrowSel) : Except FaultRecord Word := do
  let r ← checkSelector i.toNat
  pure (s.read r)

/-- `regFull(i)` (R117). -/
def State.regFull (s : State) (i : FullSel) : Except FaultRecord Word := do
  let r ← checkSelector i.toNat
  pure (s.read r)

/-- `checkFull(i)` (R117): the destination register. -/
def checkFull (i : FullSel) : Except FaultRecord Reg := checkSelector i.toNat

/-- The address an address field stands for: zero-extended, absolute (30_encoding R87). -/
def address (a : AddrField) : Word := a.setWidth 64

/-- The variable-zone check of LD, ST, IN_S and OUT_S (20_memory R52, 44_load_store R200). -/
def checkVariableZone (a : Word) : Except FaultRecord Unit :=
  if a.toNat < varMemBottom ∨ varMemTop < a.toNat then .error (.outOfBounds a) else .ok ()

/-- The check that `n` words from `base` end at or below `varMemTop`; the fault records 50001 (41_system_io R145,
R147). -/
def checkFits (base : Word) (n : Nat) : Except FaultRecord Unit :=
  if varMemTop + 1 - base.toNat < n then .error (.outOfBounds (BitVec.ofNat 64 (varMemTop + 1))) else .ok ()

/-- The stack check of PUSH (43_stack R180). -/
def checkPush (sp : Word) : Except FaultRecord Unit :=
  if sp.toNat ≤ stackMemBottom then .error (.stackFull sp)
  else if stackMemTop < sp.toNat then .error (.badStackPointer sp)
  else .ok ()

/-- The stack check of POP (43_stack R180). -/
def checkPop (sp : Word) : Except FaultRecord Unit :=
  if stackMemTop ≤ sp.toNat then .error (.stackEmpty sp)
  else if sp.toNat < stackMemBottom then .error (.badStackPointer sp)
  else .ok ()

end Sys2Proof.Machine
end

