-- ==== Sys2Proof/Machine/Arithmetic.lean ====
section
/-!
DEFINITION. ADD, SUB, MUL, DIV, CON (42_arithmetic). No floating-point condition is a fault (R160 (c)).
-/

namespace Sys2Proof.Machine

/-- The shape ADD, SUB, MUL and DIV share: two narrow operands, the first checked first, the result to `acc`
(R162 to R165, 60_exceptions R244). -/
def State.arith (s : State) (f : Word → Word → Word) (na nb : NarrowSel) : Except FaultRecord State := do
  let a ← s.regNarrow na
  let b ← s.regNarrow nb
  pure (s.write .acc (f a b)).advance

/-- ADD (R162). -/
def execAdd (na nb : NarrowSel) (s : State) : Result := s.finish (s.arith fadd na nb)

/-- SUB (R163). -/
def execSub (na nb : NarrowSel) (s : State) : Result := s.finish (s.arith fsub na nb)

/-- MUL (R164). -/
def execMul (na nb : NarrowSel) (s : State) : Result := s.finish (s.arith fmul na nb)

/-- DIV (R165). -/
def execDiv (na nb : NarrowSel) (s : State) : Result := s.finish (s.arith fdiv na nb)

/-- CON (R166, R167): one form only, integer to binary64. -/
def execCon (fr : FullSel) (s : State) : Result :=
  s.finish do
    let v ← s.regFull fr
    pure (s.write .acc (i2f v)).advance

end Sys2Proof.Machine
end

