-- ==== Sys2Proof/Machine/Flags.lean ====
section
/-!
DEFINITION. The machine has no flags (10_state R27): no instruction computes one. What stands in their place is the six
conditions of the conditional jumps, each a test of `s64(acc)` against zero (45_control_transfer R223 to R229), and the
jump they share.
-/

namespace Sys2Proof.Machine

/-- JGR: greater (R224). -/
def condGr (acc : Word) : Bool := decide (acc.toInt > 0)

/-- JGE: greater or equal (R225). -/
def condGe (acc : Word) : Bool := decide (acc.toInt ≥ 0)

/-- JEQ: equal (R226). -/
def condEq (acc : Word) : Bool := decide (acc.toInt = 0)

/-- JNE: not equal (R227). -/
def condNe (acc : Word) : Bool := decide (acc.toInt ≠ 0)

/-- JLE: less or equal (R228). -/
def condLe (acc : Word) : Bool := decide (acc.toInt ≤ 0)

/-- JLS: less (R229). -/
def condLs (acc : Word) : Bool := decide (acc.toInt < 0)

/-- Jump to the address if the condition holds of `acc`, else fall through (R223). -/
def State.jumpIf (s : State) (cond : Word → Bool) (a : AddrField) : State :=
  if cond (s.read .acc) then s.write .ip (address a) else s.advance

end Sys2Proof.Machine
end

