-- ==== Sys2Proof/Machine/Control.lean ====
section
/-!
DEFINITION. JMP and the six conditional jumps (45_control_transfer). None raises a fault itself; a target that cannot be
fetched faults at the next fetch (R220).
-/

namespace Sys2Proof.Machine

/-- JMP (R220). -/
def execJmp (a : AddrField) (s : State) : Result := .next (s.write .ip (address a))

/-- JGR (R224). -/
def execJgr (a : AddrField) (s : State) : Result := .next (s.jumpIf condGr a)

/-- JGE (R225). -/
def execJge (a : AddrField) (s : State) : Result := .next (s.jumpIf condGe a)

/-- JEQ (R226). -/
def execJeq (a : AddrField) (s : State) : Result := .next (s.jumpIf condEq a)

/-- JNE (R227). -/
def execJne (a : AddrField) (s : State) : Result := .next (s.jumpIf condNe a)

/-- JLE (R228). -/
def execJle (a : AddrField) (s : State) : Result := .next (s.jumpIf condLe a)

/-- JLS (R229). -/
def execJls (a : AddrField) (s : State) : Result := .next (s.jumpIf condLs a)

end Sys2Proof.Machine
end

