-- ==== Sys2Proof/Machine/LoadStore.lean ====
section
/-!
DEFINITION. LD and ST (44_load_store).
-/

namespace Sys2Proof.Machine

/-- LD (R201). -/
def execLd (fr : FullSel) (a : AddrField) (s : State) : Result :=
  s.finish do
    let d ← checkFull fr
    checkVariableZone (address a)
    let v ← s.memRead (address a)
    pure (s.moveTo d v)

/-- ST (R202). -/
def execSt (fr : FullSel) (a : AddrField) (s : State) : Result :=
  s.finish do
    let v ← s.regFull fr
    checkVariableZone (address a)
    let t ← s.memWrite (address a) v
    pure t.advance

end Sys2Proof.Machine
end

