-- ==== Sys2Proof/Machine/Stack.lean ====
section
/-!
DEFINITION. PUSH and POP (43_stack).
-/

namespace Sys2Proof.Machine

/-- PUSH (R181): the source is read before `sp` changes. -/
def execPush (fr : FullSel) (s : State) : Result :=
  s.finish do
    let v ← s.regFull fr
    checkPush (s.read .sp)
    let t ← s.memWrite (s.read .sp) v
    pure (t.write .sp (t.read .sp - 1)).advance

/-- POP (R182): `sp` is incremented, then the slot is read; a destination `sp` overwrites the incremented `sp`. -/
def execPop (fr : FullSel) (s : State) : Result :=
  s.finish do
    let d ← checkFull fr
    checkPop (s.read .sp)
    let t := s.write .sp (s.read .sp + 1)
    let v ← t.memRead (t.read .sp)
    pure (t.moveTo d v)

end Sys2Proof.Machine
end

