-- ==== Sys2Proof/Machine/SystemIo.lean ====
section
/-!
DEFINITION. HALT, IN_N, OUT_N, IN_S, OUT_S (41_system_io).
-/

namespace Sys2Proof.Machine

/-- HALT (R140). -/
def execHalt (s : State) : Result := .next s.enterHalted

/-- IN_N (R141). With no answer from the host the engine waits (40_dispatch R119). -/
def execInN (s : State) : Result :=
  match s.numAnswers with
  | [] => .next (s.await .num)
  | .value v :: rest => .next ((s.consumeNum (.value v) rest).write .acc v).advance
  | .malformed :: rest => .next ((s.consumeNum .malformed rest).raise .malformed)
  | .endOfInput :: rest => .next ((s.consumeNum .endOfInput rest).raise .endOfInput)

/-- OUT_N (R143). -/
def execOutN (s : State) : Result := .next (s.emit (.num (s.read .acc))).advance

/-- IN_S once the base is checked: the input transaction, then the fit check, then the writes (R145). -/
def State.readString (s : State) (base : Word) : Result :=
  match s.strAnswers with
  | [] => .next (s.await .str)
  | .malformed :: rest => .next ((s.consumeStr .malformed rest).raise .malformed)
  | .endOfInput :: rest => .next ((s.consumeStr .endOfInput rest).raise .endOfInput)
  | .chars cs :: rest =>
    let s' := s.consumeStr (.chars cs) rest
    s'.finish do
      checkFits base cs.length
      let t ← s'.memWriteAll base cs
      pure (t.write .acc (BitVec.ofNat 64 cs.length)).advance

/-- IN_S (R145): the base is checked before input is requested. -/
def execInS (a : AddrField) (s : State) : Result :=
  match checkVariableZone (address a) with
  | .error f => .next (s.raise f)
  | .ok () => s.readString (address a)

/-- OUT_S (R147). -/
def execOutS (a : AddrField) (s : State) : Result :=
  s.finish do
    checkVariableZone (address a)
    checkFits (address a) (s.read .acc).toNat
    let cs ← s.memReadAll (address a) (s.read .acc).toNat
    pure (s.emit (.str cs)).advance

end Sys2Proof.Machine
end

