-- ==== Sys2Proof/Machine/Dispatch.lean ====
section
/-!
DEFINITION. The dispatcher: one handler per opcode (40_dispatch R113, R114).
-/

namespace Sys2Proof.Machine

/-- Run the handler of a decoded instruction (40_dispatch R113). -/
def exec (i : Instr) (s : State) : Host.Outcome State Fault Refusal :=
  match i with
  | .halt => Sys2Proof.Machine.execHalt s
  | .inN => Sys2Proof.Machine.execInN s
  | .outN => Sys2Proof.Machine.execOutN s
  | .inS a => Sys2Proof.Machine.execInS a s
  | .outS a => Sys2Proof.Machine.execOutS a s
  | .add na nb => Sys2Proof.Machine.execAdd na nb s
  | .sub na nb => Sys2Proof.Machine.execSub na nb s
  | .mul na nb => Sys2Proof.Machine.execMul na nb s
  | .div na nb => Sys2Proof.Machine.execDiv na nb s
  | .con fr => Sys2Proof.Machine.execCon fr s
  | .push fr => Sys2Proof.Machine.execPush fr s
  | .pop fr => Sys2Proof.Machine.execPop fr s
  | .ld fr a => Sys2Proof.Machine.execLd fr a s
  | .st fr a => Sys2Proof.Machine.execSt fr a s
  | .jmp a => Sys2Proof.Machine.execJmp a s
  | .jgr a => Sys2Proof.Machine.execJgr a s
  | .jge a => Sys2Proof.Machine.execJge a s
  | .jeq a => Sys2Proof.Machine.execJeq a s
  | .jne a => Sys2Proof.Machine.execJne a s
  | .jle a => Sys2Proof.Machine.execJle a s
  | .jls a => Sys2Proof.Machine.execJls a s

end Sys2Proof.Machine
end

