-- ==== Sys2Proof/Machine/Step.lean ====
section
/-!
DEFINITION. The step of the engine (40_dispatch R110, R114) and the host's placement of one instruction.
-/

namespace Sys2Proof.Machine

/-- One step: in Running, fetch, decode and run one handler, or enter the fault of the fetch or of the dispatch
(R110 to R114). In every other run state the engine takes no step and nothing changes (R110, 10_state R29; log
entry 4). A discarded session has no engine (log entry 10). -/
def step (s : State) : Host.Outcome State Fault Refusal :=
  if s.discarded then .fault .sessionDiscarded
  else if s.runState = some .running then
    match s.nextInstr with
    | .ok i => exec i s
    | .error f => .next (s.raise f)
  else .next s

/-- `s` about to run one given word: the word stands at `ip`, and the session runs (log entry 8). -/
def State.withFetchWord (s : State) (nbits w : Nat) : State :=
  let at_ := if (s.read .ip).toNat ≤ memTop then s.read .ip else 0
  { s.write .ip at_ with
    mem := Memory.write s.mem at_.toNat (BitVec.ofNat 64 (w % 2 ^ nbits))
    runState := some .running
    discarded := false }

end Sys2Proof.Machine
end

