-- ==== Sys2Proof/Machine/HostPort.lean ====
section
/-!
DEFINITION. The block's interface to its host (10_state R40): the transactions by which a session is loaded, preset,
run, answered, read and discarded (70_reset R271 to R275). They act between steps; no step performs one (log entries 8
and 9).
-/

namespace Sys2Proof.Machine

/-- The host's transactions that change the block (R40 (1) to (3), (5); 60_exceptions R249). -/
inductive HostTransaction where
  /-- copy the words to memory from address 0 -/
  | load (program : List Word)
  /-- preset a register other than `ip` -/
  | presetReg (r : Reg) (v : Word)
  /-- preset a memory word -/
  | presetMem (a : Nat) (v : Word)
  /-- start execution -/
  | run
  /-- answer the next `InNum()` -/
  | answerNum (a : NumAnswer)
  /-- answer the next `InStr()` -/
  | answerStr (a : StrAnswer)
  /-- discard the session -/
  | discard
deriving DecidableEq, Repr

/-- Load (70_reset R272): once, before anything else; an over-long program is refused. -/
def hostLoad (program : List Word) (s : State) : Result :=
  if s.runState ≠ none then .refused .hostTransactionNotAllowed
  else if program.length > maxProgram then .refused (.programTooLong program.length)
  else .next { s.write .ip 0 with mem := Memory.writeAll s.mem 0 program, runState := some .ready }

/-- Preset of a register (70_reset R273): in Ready only, any register but `ip`. -/
def hostPresetReg (r : Reg) (v : Word) (s : State) : Result :=
  if s.runState = some .ready ∧ r ≠ .ip then .next (s.write r v)
  else .refused .hostTransactionNotAllowed

/-- Preset of a memory word (70_reset R273): in Ready only, any word 0..50000. -/
def hostPresetMem (a : Nat) (v : Word) (s : State) : Result :=
  if s.runState = some .ready ∧ a ≤ memTop then .next { s with mem := Memory.write s.mem a v }
  else .refused .hostTransactionNotAllowed

/-- Run (70_reset R275): Ready becomes Running. -/
def hostRun (s : State) : Result :=
  if s.runState = some .ready then .next { s with runState := some .running }
  else .refused .hostTransactionNotAllowed

/-- Whether the session has ended (10_state R29). -/
def State.terminal (s : State) : Bool :=
  decide (s.runState = some .halted) || decide (s.runState = some .faulted)

/-- The host's next numeric answer (10_state R41; log entry 5). -/
def hostAnswerNum (a : NumAnswer) (s : State) : Result :=
  if s.terminal then .refused .hostTransactionNotAllowed
  else .next { s with numAnswers := s.numAnswers ++ [a] }

/-- The host's next string answer (10_state R42; log entry 5). -/
def hostAnswerStr (a : StrAnswer) (s : State) : Result :=
  if s.terminal then .refused .hostTransactionNotAllowed
  else .next { s with strAnswers := s.strAnswers ++ [a] }

/-- Discard, at any time (60_exceptions R249; log entry 10). -/
def hostDiscard (s : State) : Result := .next { s with discarded := true }

/-- One host transaction; none acts on a discarded session. -/
def hostTransact (h : HostTransaction) (s : State) : Result :=
  if s.discarded then .refused .hostTransactionNotAllowed
  else
    match h with
    | .load p => hostLoad p s
    | .presetReg r v => hostPresetReg r v s
    | .presetMem a v => hostPresetMem a v s
    | .run => hostRun s
    | .answerNum a => hostAnswerNum a s
    | .answerStr a => hostAnswerStr a s
    | .discard => hostDiscard s

/-- What the host reads of an ended session: the fault record, every register and every memory word (R40 (4)). -/
structure Snapshot where
  faultRecord : Option FaultRecord
  regs : RegFile
  mem : Memory
deriving DecidableEq, Repr

/-- The run state, readable at any time (R40 (4)). -/
def hostStatus (s : State) : Option RunState := if s.discarded then none else s.runState

/-- The snapshot, readable in Halted and Faulted only (R40 (4), 40_dispatch R121). -/
def hostSnapshot (s : State) : Option Snapshot :=
  if s.discarded = false ∧ s.terminal = true then
    some { faultRecord := s.faultRecord, regs := s.regs, mem := s.mem }
  else none

end Sys2Proof.Machine
end

