-- ==== Sys2Proof/Safety.lean ====
section
/-!
DEFINITION. The vocabulary of claims: the invariant of a session, and what it is for a pattern to be a correctly
rounded binary64 number.
-/

namespace Sys2Proof.Machine

/-! ### The invariant -/

/-- The fault record is empty except in Faulted (10_state R30). -/
def State.recordAgrees (s : State) : Bool :=
  s.faultRecord.isSome == decide (s.runState = some .faulted)

/-- A pending wait is the wait of a running IN_N or IN_S at `ip`, its base checked (10_state R31 (b), 41_system_io
R141, R145). -/
def State.waitAgrees (s : State) : Bool :=
  match s.inputWait with
  | none => true
  | some .num => decide (s.runState = some .running) && decide (s.nextInstr = .ok .inN)
  | some .str =>
    decide (s.runState = some .running) &&
      match s.nextInstr with
      | .ok (.inS a) => decide (checkVariableZone (address a) = .ok ())
      | _ => false

/-- Whether the session has started to run (10_state R29). -/
def State.started (s : State) : Bool :=
  !(decide (s.runState = none) || decide (s.runState = some .ready))

/-- Before the run `ip` is 0 and nothing has been consumed or emitted (10_state R29, 70_reset R273). -/
def State.startAgrees (s : State) : Bool :=
  s.started || (decide (s.read .ip = 0) && decide (s.consumed = []) && decide (s.output = []))

/-- The invariant of a session. -/
def State.inv (s : State) : Bool :=
  Memory.wf s.mem && s.recordAgrees && s.waitAgrees && s.startAgrees

/-! ### Sequences of instructions -/

/-- The handlers of a list of instructions one after another, stopping where the model stops. -/
def runInstrs : List Instr → State → Result
  | [], s => .next s
  | i :: is, s =>
    match exec i s with
    | .next t => runInstrs is t
    | .fault f => .fault f
    | .refused r => .refused r

/-- The first register selector of an instruction, in the order `na`, `nb`, `fr`, that names no register
(60_exceptions R244 (3)). -/
def Instr.badSelector : Instr → Option Nat
  | .add na nb | .sub na nb | .mul na nb | .div na nb =>
    if 10 < na.toNat then some na.toNat else if 10 < nb.toNat then some nb.toNat else none
  | .con fr | .push fr | .pop fr | .ld fr _ | .st fr _ => if 10 < fr.toNat then some fr.toNat else none
  | .halt | .inN | .outN | .inS _ | .outS _ | .jmp _ | .jgr _ | .jge _ | .jeq _ | .jne _ | .jle _ | .jls _ => none

/-! ### Traffic (10_state R45) -/

/-- The numeric answer of an input event, if it is one. -/
def InputEvent.numAnswer : InputEvent → Option NumAnswer
  | .num a => some a
  | .str _ => none

/-- The string answer of an input event, if it is one. -/
def InputEvent.strAnswer : InputEvent → Option StrAnswer
  | .num _ => none
  | .str a => some a

/-! ### Binary64 values -/

/-- The rational number a finite pattern encodes (00_scope R12). -/
def finiteValue (v : Word) : Option ℚ :=
  match f64 v with
  | .finite neg mag => some ((if neg then -1 else 1) * (mag : ℚ) / (unitsPerOne : ℚ))
  | _ => none

/-- Round to nearest, ties to even (42_arithmetic R160 (a), (c)): `r` is the finite pattern whose value lies nearest
to `x`, the one with an even last bit where two lie equally near; from half a unit in the last place above the largest
finite number on, `r` is the infinity of the sign of `x`. -/
def IsRounded (x : ℚ) (r : Word) : Prop :=
  if (2 : ℚ) ^ 1024 - 2 ^ 970 ≤ |x| then r = infinity (decide (x < 0))
  else ∃ ρ, finiteValue r = some ρ ∧ ∀ z ζ, finiteValue z = some ζ →
    |ρ - x| ≤ |ζ - x| ∧ (|ρ - x| = |ζ - x| → ζ ≠ ρ → r.getLsbD 0 = false)

end Sys2Proof.Machine
end

