-- ==== Sys2Proof/Certificates/Slice0/Obligations.lean ====
section
/-!
DEFINITION. The statements for the provers, each taken from numbered rules of spec/ (the rules are named in the
docstrings and in OBLIGATIONS.json).
-/

open Sys2Proof Sys2Proof.Machine

/-! ### Encoding (30_encoding) -/

/-- R81 to R87: each of the five fields is recovered by the rotation and the mask the rules give, and is the bit range
they give. Which instructions read a field, and as which operand, is OpcodeMapDecodesEveryWord's to say. -/
def Obligations.DecoderFieldsAreBitRanges : Prop :=
  ∀ w : Word,
    ((decodeOpcode w).setWidth 64 = rotl64 w 8 &&& 0xFF ∧ decodeOpcode w = w.extractLsb' 56 8) ∧
    ((decodeNarrowOperand w rotNarrowA).setWidth 64 = rotl64 w 12 &&& 0xF ∧
      decodeNarrowOperand w rotNarrowA = w.extractLsb' 52 4) ∧
    ((decodeNarrowOperand w rotNarrowB).setWidth 64 = rotl64 w 16 &&& 0xF ∧
      decodeNarrowOperand w rotNarrowB = w.extractLsb' 48 4) ∧
    ((decodeFullRegister w).setWidth 64 = rotl64 w 21 &&& 0x1F ∧ decodeFullRegister w = w.extractLsb' 43 5) ∧
    (address (decodeAddressField w) = rotl64 w 0 &&& 0xFFFF_FFFF ∧
      address (decodeAddressField w) = (w.extractLsb' 0 32).setWidth 64)

/-- R11: the rotations, bit by bit. -/
def Obligations.RotationsMoveBits : Prop :=
  ∀ (w : Word) (r i : Nat), r < 64 → i < 64 →
    (rotl64 w r).getLsbD i = w.getLsbD ((i + 64 - r) % 64) ∧
    (rotr64 w r).getLsbD i = w.getLsbD ((i + r) % 64) ∧
    rotl64 w 0 = w ∧ rotr64 (rotl64 w r) r = w

/-- R90: (a) the fields of an encoded word are the fields encoded; (b) a canonical word is the encoding of its fields;
(c) any other word loses exactly bits 42:32. -/
def Obligations.FieldCodecRoundTrips : Prop :=
  (∀ (op : BitVec 8) (na nb : NarrowSel) (fr : FullSel) (addr : AddrField),
    let w := encodeFields op na nb fr addr
    decodeOpcode w = op ∧ decodeNarrowOperand w rotNarrowA = na ∧ decodeNarrowOperand w rotNarrowB = nb ∧
      decodeFullRegister w = fr ∧ decodeAddressField w = addr) ∧
  (∀ w : Word, w.extractLsb' 32 11 = 0 →
    encodeFields (decodeOpcode w) (w.extractLsb' 52 4) (w.extractLsb' 48 4) (w.extractLsb' 43 5)
      (w.extractLsb' 0 32) = w) ∧
  (∀ w : Word,
    encodeFields (decodeOpcode w) (w.extractLsb' 52 4) (w.extractLsb' 48 4) (w.extractLsb' 43 5)
      (w.extractLsb' 0 32) = w &&& 0xFFFF_F800_FFFF_FFFF)

/-- R89, R91: decoding the canonical word of any instruction gives it back, every operand at every value. -/
def Obligations.DecodeOfEncodeIsIdentity : Prop :=
  ∀ i : Instr, decode (encode i) = .ok i

/-- R82, R91, R95, R96: the whole opcode map, each field by its bit range. -/
def Obligations.OpcodeMapDecodesEveryWord : Prop :=
  ∀ w : Word,
    decode w =
      match (w.extractLsb' 56 8).toNat with
      | 0x01 => .ok .halt
      | 0x02 => .ok .inN
      | 0x03 => .ok .outN
      | 0x04 => .ok (.inS (w.extractLsb' 0 32))
      | 0x05 => .ok (.outS (w.extractLsb' 0 32))
      | 0x06 => .ok (.add (w.extractLsb' 52 4) (w.extractLsb' 48 4))
      | 0x07 => .ok (.sub (w.extractLsb' 52 4) (w.extractLsb' 48 4))
      | 0x08 => .ok (.mul (w.extractLsb' 52 4) (w.extractLsb' 48 4))
      | 0x09 => .ok (.div (w.extractLsb' 52 4) (w.extractLsb' 48 4))
      | 0x0A => .ok (.con (w.extractLsb' 43 5))
      | 0x0B => .ok (.push (w.extractLsb' 43 5))
      | 0x0C => .ok (.pop (w.extractLsb' 43 5))
      | 0x0D => .ok (.ld (w.extractLsb' 43 5) (w.extractLsb' 0 32))
      | 0x0E => .ok (.st (w.extractLsb' 43 5) (w.extractLsb' 0 32))
      | 0x0F => .ok (.jmp (w.extractLsb' 0 32))
      | 0x10 => .ok (.jgr (w.extractLsb' 0 32))
      | 0x11 => .ok (.jge (w.extractLsb' 0 32))
      | 0x12 => .ok (.jeq (w.extractLsb' 0 32))
      | 0x13 => .ok (.jne (w.extractLsb' 0 32))
      | 0x14 => .ok (.jle (w.extractLsb' 0 32))
      | 0x15 => .ok (.jls (w.extractLsb' 0 32))
      | _ => .error (.invalidOpcode (w.extractLsb' 56 8))

/-- R92: bits the opcode does not read may hold any value, and the word behaves as if they were zero. -/
def Obligations.UnreadBitsAreIgnored : Prop :=
  ∀ (w : Word) (i : Instr), decode w = .ok i →
    encode i = w &&& i.mnemonic.readMask ∧
    ∀ w' : Word, w' &&& i.mnemonic.readMask = w &&& i.mnemonic.readMask → decode w' = .ok i

/-- A few words written out in 95_test_vectors decode to the instructions they stand for. -/
def Obligations.SampleWordsDecode : Prop :=
  decode 0x0601_0000_0000_0000 = .ok (.add 0 1) ∧
  decode 0x0A00_2800_0000_0000 = .ok (.con 5) ∧
  decode 0x0B00_4800_0000_0000 = .ok (.push 9) ∧
  decode 0x0D00_1000_0000_9C41 = .ok (.ld 2 40001) ∧
  decode 0x0F00_0000_0000_0005 = .ok (.jmp 5) ∧
  decode 0x0400_0000_0000_9C41 = .ok (.inS 40001) ∧
  decode 0x0100_0001_0000_0000 = .ok .halt ∧
  decode 0xFF00_0000_0000_0000 = .error (.invalidOpcode 0xFF)

/-! ### Fetch, decode, dispatch (40_dispatch) -/

/-- R110, R114: a running engine whose word at `ip` decodes runs that instruction's handler and does nothing else. -/
def Obligations.StepRunsTheDecodedInstruction : Prop :=
  ∀ (s : State) (i : Instr), s.discarded = false → s.runState = some .running → (s.read .ip).toNat ≤ 50000 →
    decode (Memory.read s.mem (s.read .ip).toNat) = .ok i → step s = exec i s

/-- R111: the fetch reads any address up to 50000; above, the step enters the fetch fault with `ip` unchanged. -/
def Obligations.FetchIsBoundsChecked : Prop :=
  ∀ s : State,
    ((s.read .ip).toNat ≤ 50000 → s.fetch = .ok (Memory.read s.mem (s.read .ip).toNat)) ∧
    (50000 < (s.read .ip).toNat →
      s.fetch = .error (.fetchOutOfBounds (s.read .ip)) ∧
      (s.discarded = false → s.runState = some .running →
        step s =
          .next { s with runState := some .faulted, faultRecord := some (.fetchOutOfBounds (s.read .ip)) }))

/-- R113: each assigned opcode selects exactly one handler; every other raises `InvalidOpcode` with no other effect. -/
def Obligations.DispatchSelectsOneHandler : Prop :=
  ∀ s : State, s.discarded = false → s.runState = some .running → (s.read .ip).toNat ≤ 50000 →
    let op := (Memory.read s.mem (s.read .ip).toNat).extractLsb' 56 8
    (1 ≤ op.toNat ∧ op.toNat ≤ 0x15 →
      ∃! i : Instr, decode (Memory.read s.mem (s.read .ip).toNat) = .ok i ∧ i.mnemonic.opcode = op ∧
        step s = exec i s) ∧
    (op.toNat = 0 ∨ 0x16 ≤ op.toNat →
      step s = .next { s with runState := some .faulted, faultRecord := some (.invalidOpcode op) })

/-- R110, R29, R248: outside Running the engine takes no step, however often it is asked (in the model: the state is
answered unchanged, log entry 4). -/
def Obligations.NoStepOutsideRunning : Prop :=
  ∀ (s : State) (k : Nat), s.discarded = false → s.runState ≠ some .running → Host.Core.run core k s = .next s

/-- R115: the four ways a completed handler sets the next `ip`. -/
def Obligations.NextInstructionPointer : Prop :=
  ∀ (i : Instr) (s t : State), s.runState = some .running → s.inputWait = none → exec i s = .next t →
    t.runState ≠ some .faulted → t.inputWait = none →
    t.read .ip =
      match i with
      | .halt => s.read .ip
      | .jmp a => address a
      | .jgr a => if (s.read .acc).toInt > 0 then address a else s.read .ip + 1
      | .jge a => if (s.read .acc).toInt ≥ 0 then address a else s.read .ip + 1
      | .jeq a => if (s.read .acc).toInt = 0 then address a else s.read .ip + 1
      | .jne a => if (s.read .acc).toInt ≠ 0 then address a else s.read .ip + 1
      | .jle a => if (s.read .acc).toInt ≤ 0 then address a else s.read .ip + 1
      | .jls a => if (s.read .acc).toInt < 0 then address a else s.read .ip + 1
      | .pop fr => if fr = 8 then Memory.read s.mem (s.read .sp + 1).toNat else s.read .ip + 1
      | .ld fr a => if fr = 8 then Memory.read s.mem (address a).toNat else s.read .ip + 1
      | _ => s.read .ip + 1

/-- R29 (and R32 for the load): the only run state transitions of steps and of host transactions. -/
def Obligations.OnlyRunStateTransitions : Prop :=
  (∀ s t : State, step s = .next t →
    (s.runState = some .running ∧
      (t.runState = some .running ∨ t.runState = some .halted ∨ t.runState = some .faulted)) ∨
    (s.runState ≠ some .running ∧ t = s)) ∧
  (∀ (h : HostTransaction) (s t : State), hostTransact h s = .next t →
    t.runState = s.runState ∨
    (h = .run ∧ s.runState = some .ready ∧ t.runState = some .running) ∨
    ((∃ p, h = .load p) ∧ s.runState = none ∧ t.runState = some .ready))

/-- Every step of a session not discarded, and every handler, answers a next state: no instruction is refused and
none stops the model. The form of the answer is the model's choice in two cases: in Ready, Halted and Faulted and
before a load, where R110 takes no step, the state is answered unchanged (log entry 4); an unanswered IN_N or IN_S,
which 93_implementation_defined items 2 and 3 call stuck, is answered with its wait recorded (log entry 6). -/
def Obligations.EveryStepHasANextState : Prop :=
  (∀ s : State, s.discarded = false → ∃ t, step s = .next t) ∧
  (∀ (i : Instr) (s : State), ∃ t, exec i s = .next t)

/-! ### Halt and I/O (41_system_io) -/

/-- R140: HALT enters Halted and changes nothing else. R140 says that no fetch follows; that a further step answers the
state unchanged is the model's choice (log entry 4). -/
def Obligations.HaltStopsTheEngine : Prop :=
  (∀ w : Word, w.extractLsb' 56 8 = 0x01#8 → decode w = .ok .halt) ∧
  ∀ s : State, exec .halt s = .next { s with runState := some .halted } ∧
    (s.discarded = false → ∀ t, exec .halt s = .next t → step t = .next t)

/-- R141: the three answers; an IOFault leaves `ip` and `acc` and consumes the answer. Without an answer the step does
not finish (R119; 93_implementation_defined item 2: stuck): that exec then answers a next state, changed in nothing but
the record of the wait, is the model's choice (log entry 6). -/
def Obligations.InNReadsOneNumber : Prop :=
  (∀ w : Word, w.extractLsb' 56 8 = 0x02#8 → decode w = .ok .inN) ∧
  ∀ (s : State) (rest : List NumAnswer),
    (s.numAnswers = [] → ∃ w, exec .inN s = .next { s with inputWait := w }) ∧
    (∀ v, s.numAnswers = .value v :: rest →
      exec .inN s = .next
        { s with
          regs := { s.regs with acc := v, ip := s.regs.ip + 1 }
          inputWait := none
          numAnswers := rest
          consumed := s.consumed ++ [.num (.value v)] }) ∧
    (s.numAnswers = .malformed :: rest →
      exec .inN s = .next
        { s with
          runState := some .faulted
          faultRecord := some .malformed
          inputWait := none
          numAnswers := rest
          consumed := s.consumed ++ [.num .malformed] }) ∧
    (s.numAnswers = .endOfInput :: rest →
      exec .inN s = .next
        { s with
          runState := some .faulted
          faultRecord := some .endOfInput
          inputWait := none
          numAnswers := rest
          consumed := s.consumed ++ [.num .endOfInput] })

/-- R119, R31 (b): without an answer the engine stays Running and changes nothing but the record of its wait, for any
number of steps; the answer, when it comes, completes the instruction as if it had been there at once. How the wait
shows in the state is the model's (log entry 6). -/
def Obligations.InputWaitBlocksTheEngine : Prop :=
  ∀ s : State, s.discarded = false → s.runState = some .running →
    (s.nextInstr = .ok .inN → s.numAnswers = [] →
      (∀ k, Host.Core.run core (k + 1) s = .next { s with inputWait := some .num }) ∧
      ∀ a, step { s with inputWait := some .num, numAnswers := [a] } = step { s with numAnswers := [a] }) ∧
    (∀ b, s.nextInstr = .ok (.inS b) → 40001 ≤ b.toNat → b.toNat ≤ 50000 → s.strAnswers = [] →
      (∀ k, Host.Core.run core (k + 1) s = .next { s with inputWait := some .str }) ∧
      ∀ a, step { s with inputWait := some .str, strAnswers := [a] } = step { s with strAnswers := [a] })

/-- R143. -/
def Obligations.OutNEmitsTheAccumulator : Prop :=
  (∀ w : Word, w.extractLsb' 56 8 = 0x03#8 → decode w = .ok .outN) ∧
  ∀ s : State, exec .outN s = .next
    { s with
      regs := { s.regs with ip := s.regs.ip + 1 }
      output := s.output ++ [.num s.regs.acc] }

/-- R145: the base is checked before input is taken, the fit after it and before any write; the string is written one
character per word, whole or not at all. Without an answer the step does not finish (R119; 93_implementation_defined
item 3: stuck): that exec then answers a next state, changed in nothing but the record of the wait, is the model's
choice (log entry 6). -/
def Obligations.InSWritesTheString : Prop :=
  (∀ w : Word, w.extractLsb' 56 8 = 0x04#8 → decode w = .ok (.inS (w.extractLsb' 0 32))) ∧
  ∀ (a : AddrField) (s : State) (rest : List StrAnswer),
    (a.toNat < 40001 ∨ 50000 < a.toNat →
      exec (.inS a) s = .next
        { s with runState := some .faulted, faultRecord := some (.outOfBounds (a.setWidth 64)) }) ∧
    (40001 ≤ a.toNat → a.toNat ≤ 50000 →
      (s.strAnswers = [] → ∃ w, exec (.inS a) s = .next { s with inputWait := w }) ∧
      (s.strAnswers = .malformed :: rest →
        exec (.inS a) s = .next
          { s with
            runState := some .faulted
            faultRecord := some .malformed
            inputWait := none
            strAnswers := rest
            consumed := s.consumed ++ [.str .malformed] }) ∧
      (s.strAnswers = .endOfInput :: rest →
        exec (.inS a) s = .next
          { s with
            runState := some .faulted
            faultRecord := some .endOfInput
            inputWait := none
            strAnswers := rest
            consumed := s.consumed ++ [.str .endOfInput] }) ∧
      (∀ cs, s.strAnswers = .chars cs :: rest → 50001 - a.toNat < cs.length →
        exec (.inS a) s = .next
          { s with
            runState := some .faulted
            faultRecord := some (.outOfBounds 50001)
            inputWait := none
            strAnswers := rest
            consumed := s.consumed ++ [.str (.chars cs)] }) ∧
      (∀ cs, s.strAnswers = .chars cs :: rest → cs.length ≤ 50001 - a.toNat → Memory.wf s.mem = true →
        ∃ m, exec (.inS a) s = .next
            { s with
              regs := { s.regs with acc := BitVec.ofNat 64 cs.length, ip := s.regs.ip + 1 }
              mem := m
              inputWait := none
              strAnswers := rest
              consumed := s.consumed ++ [.str (.chars cs)] } ∧
          (∀ (k : Nat) (hk : k < cs.length), Memory.read m (a.toNat + k) = cs[k]) ∧
          ∀ x, x < a.toNat ∨ a.toNat + cs.length ≤ x → Memory.read m x = Memory.read s.mem x))

/-- R147: the base and the fit are checked, then the words from the base are emitted in order. -/
def Obligations.OutSEmitsTheString : Prop :=
  (∀ w : Word, w.extractLsb' 56 8 = 0x05#8 → decode w = .ok (.outS (w.extractLsb' 0 32))) ∧
  ∀ (a : AddrField) (s : State),
    (a.toNat < 40001 ∨ 50000 < a.toNat →
      exec (.outS a) s = .next
        { s with runState := some .faulted, faultRecord := some (.outOfBounds (a.setWidth 64)) }) ∧
    (40001 ≤ a.toNat → a.toNat ≤ 50000 → 50001 - a.toNat < s.regs.acc.toNat →
      exec (.outS a) s = .next
        { s with runState := some .faulted, faultRecord := some (.outOfBounds 50001) }) ∧
    (40001 ≤ a.toNat → a.toNat ≤ 50000 → s.regs.acc.toNat ≤ 50001 - a.toNat →
      exec (.outS a) s = .next
        { s with
          regs := { s.regs with ip := s.regs.ip + 1 }
          output := s.output ++
            [.str ((List.range s.regs.acc.toNat).map fun k => Memory.read s.mem (a.toNat + k))] })

/-! ### Arithmetic and conversion (42_arithmetic) -/

/-- R162: ADD's encoding, selector faults, result, and the corner cases and example of the rule. -/
def Obligations.AddWritesTheSum : Prop :=
  (∀ w : Word, w.extractLsb' 56 8 = 0x06#8 → decode w = .ok (.add (w.extractLsb' 52 4) (w.extractLsb' 48 4))) ∧
  (∀ (na nb : NarrowSel) (s : State),
    (10 < na.toNat → exec (.add na nb) s = .next
      { s with runState := some .faulted, faultRecord := some (.unknownRegister na.toNat) }) ∧
    (na.toNat ≤ 10 → 10 < nb.toNat → exec (.add na nb) s = .next
      { s with runState := some .faulted, faultRecord := some (.unknownRegister nb.toNat) }) ∧
    (∀ ra rb, Reg.ofIndex na.toNat = some ra → Reg.ofIndex nb.toNat = some rb →
      exec (.add na nb) s = .next
        { s with regs := { s.regs with acc := fadd (s.read ra) (s.read rb), ip := s.regs.ip + 1 } })) ∧
  isNaN (fadd 0x7FF0_0000_0000_0000 0xFFF0_0000_0000_0000) = true ∧
  fadd 0x7FEF_FFFF_FFFF_FFFF 0x7FEF_FFFF_FFFF_FFFF = 0x7FF0_0000_0000_0000 ∧
  fadd 0x4000_0000_0000_0000 0x4008_0000_0000_0000 = 0x4014_0000_0000_0000

/-- R163: SUB, the first operand less the second. -/
def Obligations.SubWritesTheDifference : Prop :=
  (∀ w : Word, w.extractLsb' 56 8 = 0x07#8 → decode w = .ok (.sub (w.extractLsb' 52 4) (w.extractLsb' 48 4))) ∧
  (∀ (na nb : NarrowSel) (s : State),
    (10 < na.toNat → exec (.sub na nb) s = .next
      { s with runState := some .faulted, faultRecord := some (.unknownRegister na.toNat) }) ∧
    (na.toNat ≤ 10 → 10 < nb.toNat → exec (.sub na nb) s = .next
      { s with runState := some .faulted, faultRecord := some (.unknownRegister nb.toNat) }) ∧
    (∀ ra rb, Reg.ofIndex na.toNat = some ra → Reg.ofIndex nb.toNat = some rb →
      exec (.sub na nb) s = .next
        { s with regs := { s.regs with acc := fsub (s.read ra) (s.read rb), ip := s.regs.ip + 1 } })) ∧
  (∀ v x, finiteValue v = some x → fsub v v = 0) ∧
  (∀ neg, isNaN (fsub (infinity neg) (infinity neg)) = true) ∧
  fsub 0x4008_0000_0000_0000 0x3FF0_0000_0000_0000 = 0x4000_0000_0000_0000

/-- R164: MUL. -/
def Obligations.MulWritesTheProduct : Prop :=
  (∀ w : Word, w.extractLsb' 56 8 = 0x08#8 → decode w = .ok (.mul (w.extractLsb' 52 4) (w.extractLsb' 48 4))) ∧
  (∀ (na nb : NarrowSel) (s : State),
    (10 < na.toNat → exec (.mul na nb) s = .next
      { s with runState := some .faulted, faultRecord := some (.unknownRegister na.toNat) }) ∧
    (na.toNat ≤ 10 → 10 < nb.toNat → exec (.mul na nb) s = .next
      { s with runState := some .faulted, faultRecord := some (.unknownRegister nb.toNat) }) ∧
    (∀ ra rb, Reg.ofIndex na.toNat = some ra → Reg.ofIndex nb.toNat = some rb →
      exec (.mul na nb) s = .next
        { s with regs := { s.regs with acc := fmul (s.read ra) (s.read rb), ip := s.regs.ip + 1 } })) ∧
  (∀ s t, isNaN (fmul (withSign s 0) (infinity t)) = true) ∧
  (∀ a b x y, finiteValue a = some x → finiteValue b = some y → x * y = 0 →
    fmul a b = withSign (a.msb ^^ b.msb) 0) ∧
  (∀ a b x y, finiteValue a = some x → finiteValue b = some y → (2 : ℚ) ^ 1024 ≤ |x * y| →
    fmul a b = infinity (a.msb ^^ b.msb)) ∧
  (∀ a b x y, finiteValue a = some x → finiteValue b = some y → |x * y| * 2 ^ 1075 ≤ 1 →
    fmul a b = withSign (a.msb ^^ b.msb) 0) ∧
  fmul 0x4000_0000_0000_0000 0x4008_0000_0000_0000 = 0x4018_0000_0000_0000

/-- R165: DIV; a zero divisor is no fault. -/
def Obligations.DivWritesTheQuotient : Prop :=
  (∀ w : Word, w.extractLsb' 56 8 = 0x09#8 → decode w = .ok (.div (w.extractLsb' 52 4) (w.extractLsb' 48 4))) ∧
  (∀ (na nb : NarrowSel) (s : State),
    (10 < na.toNat → exec (.div na nb) s = .next
      { s with runState := some .faulted, faultRecord := some (.unknownRegister na.toNat) }) ∧
    (na.toNat ≤ 10 → 10 < nb.toNat → exec (.div na nb) s = .next
      { s with runState := some .faulted, faultRecord := some (.unknownRegister nb.toNat) }) ∧
    (∀ ra rb, Reg.ofIndex na.toNat = some ra → Reg.ofIndex nb.toNat = some rb →
      exec (.div na nb) s = .next
        { s with regs := { s.regs with acc := fdiv (s.read ra) (s.read rb), ip := s.regs.ip + 1 } })) ∧
  (∀ a x t, finiteValue a = some x → x ≠ 0 → fdiv a (withSign t 0) = infinity (a.msb ^^ t)) ∧
  (∀ s t, isNaN (fdiv (withSign s 0) (withSign t 0)) = true) ∧
  (∀ s t, isNaN (fdiv (infinity s) (infinity t)) = true) ∧
  (∀ a x t, finiteValue a = some x → fdiv a (infinity t) = withSign (a.msb ^^ t) 0) ∧
  fdiv 0x4008_0000_0000_0000 0x4000_0000_0000_0000 = 0x3FF8_0000_0000_0000

/-- R166: CON; every signed integer converts to a finite double. -/
def Obligations.ConConvertsTheInteger : Prop :=
  (∀ w : Word, w.extractLsb' 56 8 = 0x0A#8 → decode w = .ok (.con (w.extractLsb' 43 5))) ∧
  (∀ (fr : FullSel) (s : State),
    (10 < fr.toNat → exec (.con fr) s = .next
      { s with runState := some .faulted, faultRecord := some (.unknownRegister fr.toNat) }) ∧
    (∀ r, Reg.ofIndex fr.toNat = some r →
      exec (.con fr) s = .next
        { s with regs := { s.regs with acc := i2f (s.read r), ip := s.regs.ip + 1 } })) ∧
  (∀ v : Word, (finiteValue (i2f v)).isSome = true) ∧
  (∀ v : Word, |v.toInt| ≤ 2 ^ 53 → finiteValue (i2f v) = some (v.toInt : ℚ)) ∧
  i2f 0x0020_0000_0000_0001 = 0x4340_0000_0000_0000 ∧
  i2f 0x0020_0000_0000_0003 = 0x4340_0000_0000_0002 ∧
  i2f 0x7FFF_FFFF_FFFF_FFFF = 0x43E0_0000_0000_0000 ∧
  i2f 0x8000_0000_0000_0000 = 0xC3E0_0000_0000_0000 ∧
  i2f 0xFFFF_FFFF_FFFF_FFFF = 0xBFF0_0000_0000_0000 ∧
  i2f 0 = 0 ∧
  i2f 0x4000_0000_0000_0000 = 0x43D0_0000_0000_0000 ∧
  i2f 10 = 0x4024_0000_0000_0000

/-- R12: what number a pattern encodes, by its sign, exponent and fraction fields. -/
def Obligations.PatternsEncodeBinary64 : Prop :=
  ∀ v : Word,
    let sign : ℚ := if v.msb then -1 else 1
    let e := (v.extractLsb' 52 11).toNat
    let f := (v.extractLsb' 0 52).toNat
    (e = 0 → finiteValue v = some (sign * f * (2 : ℚ) ^ (-1074 : ℤ))) ∧
    (0 < e → e < 2047 → finiteValue v = some (sign * (1 + (f : ℚ) / 2 ^ 52) * (2 : ℚ) ^ ((e : ℤ) - 1023))) ∧
    (e = 2047 → finiteValue v = none ∧ (isNaN v = true ↔ f ≠ 0) ∧ (f = 0 → v = infinity v.msb)) ∧
    (e < 2047 → isNaN v = false)

/-- R160 (a), (b), (c): sums and differences of finite numbers are correctly rounded. -/
def Obligations.SumsRoundToNearestEven : Prop :=
  ∀ (a b : Word) (x y : ℚ), finiteValue a = some x → finiteValue b = some y →
    IsRounded (x + y) (fadd a b) ∧ IsRounded (x - y) (fsub a b)

/-- R160 (a), (b), (c): products and quotients of finite numbers are correctly rounded. For a product of magnitude
between 2^-1075 and 2^-1074 this rests on reading R164's sentence on underflow under R160 (log entry 13). -/
def Obligations.ProductsAndQuotientsRoundToNearestEven : Prop :=
  ∀ (a b : Word) (x y : ℚ), finiteValue a = some x → finiteValue b = some y →
    IsRounded (x * y) (fmul a b) ∧ (y ≠ 0 → IsRounded (x / y) (fdiv a b))

/-- R15, R166: the conversion is correctly rounded. -/
def Obligations.ConversionRoundsToNearestEven : Prop :=
  ∀ v : Word, IsRounded (v.toInt : ℚ) (i2f v)

/-- R160 (c), (d): a result is a NaN exactly for a NaN operand or an invalid operation, and then it is the open
`NAN_RESULT`. -/
def Obligations.NanResultsAreTheInvalidOperations : Prop :=
  ∀ a b : Word,
    (isNaN (fadd a b) = true ↔
      isNaN a = true ∨ isNaN b = true ∨ ∃ s, a = infinity s ∧ b = infinity (!s)) ∧
    (isNaN (fsub a b) = true ↔
      isNaN a = true ∨ isNaN b = true ∨ ∃ s, a = infinity s ∧ b = infinity s) ∧
    (isNaN (fmul a b) = true ↔
      isNaN a = true ∨ isNaN b = true ∨
        (∃ s t, a = withSign s 0 ∧ b = infinity t) ∨ ∃ s t, a = infinity s ∧ b = withSign t 0) ∧
    (isNaN (fdiv a b) = true ↔
      isNaN a = true ∨ isNaN b = true ∨
        (∃ s t, a = withSign s 0 ∧ b = withSign t 0) ∨ ∃ s t, a = infinity s ∧ b = infinity t) ∧
    (isNaN (fadd a b) = true → fadd a b = NanPattern.toWord (Config.nanResult .add a b)) ∧
    (isNaN (fsub a b) = true → fsub a b = NanPattern.toWord (Config.nanResult .sub a b)) ∧
    (isNaN (fmul a b) = true → fmul a b = NanPattern.toWord (Config.nanResult .mul a b)) ∧
    (isNaN (fdiv a b) = true → fdiv a b = NanPattern.toWord (Config.nanResult .div a b))

/-- R160 (e): the signs of zero results and of infinities: exact zero sums and differences; sums and differences with an
infinity, of a finite number or of one that does not cancel it; products and quotients with an infinity; and the
quotient of two finite numbers that is zero, exactly or by rounding (a magnitude of at most 2^-1075 rounds to zero by
R160 (a)). Zero products are MulWritesTheProduct's; overflow is IsRounded's. -/
def Obligations.SignsOfZerosAndInfinities : Prop :=
  (∀ a b x y, finiteValue a = some x → finiteValue b = some y → x + y = 0 →
    fadd a b = withSign (a.msb && b.msb) 0) ∧
  (∀ a b x y, finiteValue a = some x → finiteValue b = some y → x - y = 0 →
    fsub a b = withSign (a.msb && !b.msb) 0) ∧
  (∀ s b y, finiteValue b = some y → fadd (infinity s) b = infinity s ∧ fadd b (infinity s) = infinity s ∧
    fsub (infinity s) b = infinity s ∧ fsub b (infinity s) = infinity (!s)) ∧
  (∀ s, fadd (infinity s) (infinity s) = infinity s ∧ fsub (infinity s) (infinity (!s)) = infinity s) ∧
  (∀ s b y, finiteValue b = some y → y ≠ 0 →
    fmul (infinity s) b = infinity (s ^^ b.msb) ∧ fmul b (infinity s) = infinity (s ^^ b.msb)) ∧
  (∀ s b y, finiteValue b = some y → fdiv (infinity s) b = infinity (s ^^ b.msb)) ∧
  (∀ a b x y, finiteValue a = some x → finiteValue b = some y → y ≠ 0 → |x / y| * 2 ^ 1075 ≤ 1 →
    fdiv a b = withSign (a.msb ^^ b.msb) 0) ∧
  (∀ s t, fmul (infinity s) (infinity t) = infinity (s ^^ t))

/-! ### Stack (43_stack) -/

/-- R180, R181, R182: PUSH and POP, every row of the stack discipline. The selector is checked before the stack; PUSH
reads its source before `sp` changes; a POP into `ip` is a transfer, a POP into `sp` wins over the increment; the free slots
are exactly `sp - 30000`. -/
def Obligations.PushAndPopFollowTheDiscipline : Prop :=
  (∀ w : Word,
    (w.extractLsb' 56 8 = 0x0B#8 → decode w = .ok (.push (w.extractLsb' 43 5))) ∧
    (w.extractLsb' 56 8 = 0x0C#8 → decode w = .ok (.pop (w.extractLsb' 43 5)))) ∧
  (∀ (n : Nat) (fr : FullSel) (s : State), fr.toNat ≤ 10 → 30000 + n ≤ (s.read .sp).toNat →
    (s.read .sp).toNat ≤ 40000 →
    ∃ t, runInstrs (List.replicate n (.push fr)) s = .next t ∧ t.runState = s.runState ∧
      (t.read .sp).toNat = (s.read .sp).toNat - n) ∧
  ∀ (fr : FullSel) (s : State),
    (10 < fr.toNat →
      exec (.push fr) s = .next
        { s with runState := some .faulted, faultRecord := some (.unknownRegister fr.toNat) } ∧
      exec (.pop fr) s = .next
        { s with runState := some .faulted, faultRecord := some (.unknownRegister fr.toNat) }) ∧
    ∀ r, Reg.ofIndex fr.toNat = some r →
      (30001 ≤ (s.read .sp).toNat → (s.read .sp).toNat ≤ 40000 →
        exec (.push fr) s = .next
          { s with
            regs := { s.regs with sp := s.regs.sp - 1, ip := s.regs.ip + 1 }
            mem := Memory.write s.mem s.regs.sp.toNat (s.read r) }) ∧
      ((s.read .sp).toNat ≤ 30000 → exec (.push fr) s = .next
        { s with runState := some .faulted, faultRecord := some (.stackFull (s.read .sp)) }) ∧
      (40000 < (s.read .sp).toNat → exec (.push fr) s = .next
        { s with runState := some .faulted, faultRecord := some (.badStackPointer (s.read .sp)) }) ∧
      (30000 ≤ (s.read .sp).toNat → (s.read .sp).toNat ≤ 39999 →
        let v := Memory.read s.mem (s.regs.sp.toNat + 1)
        (r = .ip → exec (.pop fr) s = .next { s with regs := { s.regs with sp := s.regs.sp + 1, ip := v } }) ∧
        (r = .sp → exec (.pop fr) s = .next { s with regs := { s.regs with sp := v, ip := s.regs.ip + 1 } }) ∧
        (r ≠ .ip → r ≠ .sp →
          exec (.pop fr) s = .next
            { s with
              regs := RegFile.write { s.regs with sp := s.regs.sp + 1, ip := s.regs.ip + 1 } r v })) ∧
      (40000 ≤ (s.read .sp).toNat → exec (.pop fr) s = .next
        { s with runState := some .faulted, faultRecord := some (.stackEmpty (s.read .sp)) }) ∧
      ((s.read .sp).toNat ≤ 29999 → exec (.pop fr) s = .next
        { s with runState := some .faulted, faultRecord := some (.badStackPointer (s.read .sp)) })

/-- R183: (a) PUSH then POP, (b) N pushes then N pops in reverse order, (c) the PUSH ip, POP ip loop. -/
def Obligations.StackLaws : Prop :=
  (∀ (fr : FullSel) (r : Reg) (s : State), Reg.ofIndex fr.toNat = some r → r ≠ .ip →
    30001 ≤ (s.read .sp).toNat → (s.read .sp).toNat ≤ 40000 → Memory.wf s.mem = true →
    ∃ u, runInstrs [.push fr, .pop fr] s = .next u ∧ (∀ q, q ≠ .ip → u.read q = s.read q) ∧
      u.read .ip = s.read .ip + 2 ∧ Memory.read u.mem (s.read .sp).toNat = s.read r) ∧
  (∀ (frs : List FullSel) (s : State), (∀ fr ∈ frs, ∃ r, Reg.ofIndex fr.toNat = some r ∧ r ≠ .ip) →
    30000 + frs.length ≤ (s.read .sp).toNat → (s.read .sp).toNat ≤ 40000 → Memory.wf s.mem = true →
    ∃ u, runInstrs (frs.map Instr.push ++ frs.reverse.map Instr.pop) s = .next u ∧
      ∀ q, q ≠ .ip → u.read q = s.read q) ∧
  (∀ s : State, 30001 ≤ (s.read .sp).toNat → (s.read .sp).toNat ≤ 40000 → Memory.wf s.mem = true →
    ∃ u, runInstrs [.push 8, .pop 8] s = .next u ∧ u.regs = s.regs ∧ u.runState = s.runState)

/-! ### Load and store (44_load_store), memory (20_memory) -/

/-- R201: LD; the register is checked before the address. -/
def Obligations.LdLoadsAVariableWord : Prop :=
  (∀ w : Word, w.extractLsb' 56 8 = 0x0D#8 → decode w = .ok (.ld (w.extractLsb' 43 5) (w.extractLsb' 0 32))) ∧
  ∀ (fr : FullSel) (a : AddrField) (s : State),
    (10 < fr.toNat → exec (.ld fr a) s = .next
      { s with runState := some .faulted, faultRecord := some (.unknownRegister fr.toNat) }) ∧
    ∀ r, Reg.ofIndex fr.toNat = some r →
      (a.toNat < 40001 ∨ 50000 < a.toNat → exec (.ld fr a) s = .next
        { s with runState := some .faulted, faultRecord := some (.outOfBounds (a.setWidth 64)) }) ∧
      (40001 ≤ a.toNat → a.toNat ≤ 50000 →
        (r = .ip → exec (.ld fr a) s = .next
          { s with regs := { s.regs with ip := Memory.read s.mem a.toNat } }) ∧
        (r ≠ .ip → exec (.ld fr a) s = .next
          { s with
            regs := RegFile.write { s.regs with ip := s.regs.ip + 1 } r (Memory.read s.mem a.toNat) }))

/-- R202: ST; the register is checked before the address, and a fetch of the stored word sees it at once. -/
def Obligations.StStoresAVariableWord : Prop :=
  (∀ w : Word, w.extractLsb' 56 8 = 0x0E#8 → decode w = .ok (.st (w.extractLsb' 43 5) (w.extractLsb' 0 32))) ∧
  ∀ (fr : FullSel) (a : AddrField) (s : State),
    (10 < fr.toNat → exec (.st fr a) s = .next
      { s with runState := some .faulted, faultRecord := some (.unknownRegister fr.toNat) }) ∧
    ∀ r, Reg.ofIndex fr.toNat = some r →
      (a.toNat < 40001 ∨ 50000 < a.toNat → exec (.st fr a) s = .next
        { s with runState := some .faulted, faultRecord := some (.outOfBounds (a.setWidth 64)) }) ∧
      (40001 ≤ a.toNat → a.toNat ≤ 50000 →
        exec (.st fr a) s = .next
          { s with
            regs := { s.regs with ip := s.regs.ip + 1 }
            mem := Memory.write s.mem a.toNat (s.read r) } ∧
        (Memory.wf s.mem = true → ∀ t u : State, exec (.st fr a) s = .next t → u.mem = t.mem →
          u.read .ip = a.setWidth 64 → u.fetch = .ok (s.read r)))

/-- R203, for a register other than `ip`: LD then ST leaves memory as it was and the register as loaded; ST then LD
leaves the register as stored. -/
def Obligations.LoadStorePairsMoveThePattern : Prop :=
  ∀ (fr : FullSel) (r : Reg) (a : AddrField) (s : State), Reg.ofIndex fr.toNat = some r → r ≠ .ip →
    40001 ≤ a.toNat → a.toNat ≤ 50000 → Memory.wf s.mem = true →
    (∃ u, runInstrs [.ld fr a, .st fr a] s = .next u ∧ u.mem = s.mem ∧
      u.read r = Memory.read s.mem a.toNat) ∧
    (∃ u, runInstrs [.st fr a, .ld fr a] s = .next u ∧ u.mem = Memory.write s.mem a.toNat (s.read r) ∧
      u.read r = s.read r)

/-- R54: the two primitives, the read of every word after a write, and that no address the instructions' own checks
pass is one the primitives fault on. -/
def Obligations.MemoryPrimitivesAreChecked : Prop :=
  ∀ (s : State) (a v : Word),
    (checkPush a = .ok () → a.toNat ≤ 50000) ∧
    (checkPop a = .ok () → (a + 1).toNat ≤ 50000) ∧
    (checkVariableZone a = .ok () → a.toNat ≤ 50000 ∧
      ∀ n k : Nat, checkFits a n = .ok () → k < n → (a + BitVec.ofNat 64 k).toNat ≤ 50000) ∧
    (50000 < a.toNat → s.memRead a = .error (.outOfBounds a) ∧ s.memWrite a v = .error (.outOfBounds a)) ∧
    (a.toNat ≤ 50000 → Memory.wf s.mem = true →
      s.memRead a = .ok (Memory.read s.mem a.toNat) ∧
      ∃ m, s.memWrite a v = .ok { s with mem := m } ∧ Memory.wf m = true ∧
        ∀ x, Memory.read m x = if x = a.toNat then v else Memory.read s.mem x)

/-! ### Control transfer (45_control_transfer) -/

/-- R220: JMP; a jump to itself changes nothing and so loops for ever; the word at any target in memory is the next one
fetched; a target above 50000 is accepted, and the next fetch faults with `ip` the target. -/
def Obligations.JmpSetsTheInstructionPointer : Prop :=
  (∀ w : Word, w.extractLsb' 56 8 = 0x0F#8 → decode w = .ok (.jmp (w.extractLsb' 0 32))) ∧
  ∀ (a : AddrField) (s : State),
    exec (.jmp a) s = .next { s with regs := { s.regs with ip := a.setWidth 64 } } ∧
    (s.discarded = false → s.runState = some .running → s.nextInstr = .ok (.jmp a) → s.read .ip = a.setWidth 64 →
      ∀ k, Host.Core.run core k s = .next s) ∧
    (a.toNat ≤ 50000 → ∀ t, exec (.jmp a) s = .next t → t.fetch = .ok (Memory.read s.mem a.toNat)) ∧
    (s.discarded = false → s.runState = some .running → 50000 < a.toNat → ∀ t, exec (.jmp a) s = .next t →
      step t = .next
        { t with runState := some .faulted, faultRecord := some (.fetchOutOfBounds (a.setWidth 64)) })

/-- R224 to R229: the six conditional jumps, each on `s64(acc)` against zero. -/
def Obligations.ConditionalJumpsTestTheAccumulator : Prop :=
  (∀ w : Word,
    (w.extractLsb' 56 8 = 0x10#8 → decode w = .ok (.jgr (w.extractLsb' 0 32))) ∧
    (w.extractLsb' 56 8 = 0x11#8 → decode w = .ok (.jge (w.extractLsb' 0 32))) ∧
    (w.extractLsb' 56 8 = 0x12#8 → decode w = .ok (.jeq (w.extractLsb' 0 32))) ∧
    (w.extractLsb' 56 8 = 0x13#8 → decode w = .ok (.jne (w.extractLsb' 0 32))) ∧
    (w.extractLsb' 56 8 = 0x14#8 → decode w = .ok (.jle (w.extractLsb' 0 32))) ∧
    (w.extractLsb' 56 8 = 0x15#8 → decode w = .ok (.jls (w.extractLsb' 0 32)))) ∧
  ∀ (a : AddrField) (s : State),
    exec (.jgr a) s = .next
      { s with regs := { s.regs with ip := if s.regs.acc.toInt > 0 then a.setWidth 64 else s.regs.ip + 1 } } ∧
    exec (.jge a) s = .next
      { s with regs := { s.regs with ip := if s.regs.acc.toInt ≥ 0 then a.setWidth 64 else s.regs.ip + 1 } } ∧
    exec (.jeq a) s = .next
      { s with regs := { s.regs with ip := if s.regs.acc.toInt = 0 then a.setWidth 64 else s.regs.ip + 1 } } ∧
    exec (.jne a) s = .next
      { s with regs := { s.regs with ip := if s.regs.acc.toInt ≠ 0 then a.setWidth 64 else s.regs.ip + 1 } } ∧
    exec (.jle a) s = .next
      { s with regs := { s.regs with ip := if s.regs.acc.toInt ≤ 0 then a.setWidth 64 else s.regs.ip + 1 } } ∧
    exec (.jls a) s = .next
      { s with regs := { s.regs with ip := if s.regs.acc.toInt < 0 then a.setWidth 64 else s.regs.ip + 1 } }

/-- R230: exactly one of JGR, JEQ, JLS is taken, and the other three are their opposites. -/
def Obligations.JumpConditionsPartition : Prop :=
  ∀ v : Word,
    ((condGr v = true ∧ condEq v = false ∧ condLs v = false) ∨
     (condGr v = false ∧ condEq v = true ∧ condLs v = false) ∨
     (condGr v = false ∧ condEq v = false ∧ condLs v = true)) ∧
    condGe v = !condLs v ∧ condLe v = !condGr v ∧ condNe v = !condEq v

/-- R223: on an encoded double the test agrees with the double's own comparison with zero, but that -0.0 counts as
less; an infinity and a NaN count by their sign bit. -/
def Obligations.JumpTestOnDoubles : Prop :=
  ∀ v : Word,
    (∀ x, finiteValue v = some x → v ≠ 0x8000_0000_0000_0000 →
      (condGr v = decide (x > 0)) ∧ (condEq v = decide (x = 0)) ∧ (condLs v = decide (x < 0))) ∧
    condLs 0x8000_0000_0000_0000 = true ∧
    (finiteValue v = none → condGr v = !v.msb ∧ condLs v = v.msb ∧ condEq v = false)

/-! ### Frames over all instructions (10_state R23, 20_memory R51) -/

/-- R23: no handler changes a register other than the ones the table lists for its instruction. -/
def Obligations.RegisterFrame : Prop :=
  ∀ (i : Instr) (s t : State), exec i s = .next t → ∀ q : Reg,
    (match i with
      | .halt => True
      | .outN | .outS _ | .st _ _ | .jmp _ | .jgr _ | .jge _ | .jeq _ | .jne _ | .jle _ | .jls _ => q ≠ .ip
      | .inN | .inS _ | .add _ _ | .sub _ _ | .mul _ _ | .div _ _ | .con _ => q ≠ .ip ∧ q ≠ .acc
      | .push _ => q ≠ .ip ∧ q ≠ .sp
      | .pop fr => q ≠ .ip ∧ q ≠ .sp ∧ Reg.ofIndex fr.toNat ≠ some q
      | .ld fr _ => q ≠ .ip ∧ Reg.ofIndex fr.toNat ≠ some q) →
    t.read q = s.read q

/-- R51, R57: every word of memory is unchanged but the slot PUSH stores to, the variable word ST stores to and the
words of the string IN_S stores. -/
def Obligations.MemoryFrame : Prop :=
  ∀ (i : Instr) (s t : State), exec i s = .next t → ∀ x : Nat,
    (match i with
      | .push _ => x ≠ (s.read .sp).toNat
      | .st _ a => x ≠ (address a).toNat
      | .inS a => ∀ cs rest, s.strAnswers = .chars cs :: rest →
          x < (address a).toNat ∨ (address a).toNat + cs.length ≤ x
      | _ => True) →
    Memory.read t.mem x = Memory.read s.mem x

/-- R28, R30, R45: only I/O instructions touch the ports and the input wait, only HALT and faults the run state, and
only faults the fault record. -/
def Obligations.PortAndEngineFrame : Prop :=
  ∀ (i : Instr) (s t : State), exec i s = .next t →
    t.discarded = s.discarded ∧
    (i ≠ .outN → (∀ a, i ≠ .outS a) → t.output = s.output) ∧
    (i ≠ .inN → t.numAnswers = s.numAnswers) ∧
    ((∀ a, i ≠ .inS a) → t.strAnswers = s.strAnswers) ∧
    (i ≠ .inN → (∀ a, i ≠ .inS a) → t.consumed = s.consumed ∧ t.inputWait = s.inputWait) ∧
    ((t.runState = s.runState ∧ t.faultRecord = s.faultRecord) ∨
     (i = .halt ∧ t.runState = some .halted ∧ t.faultRecord = s.faultRecord) ∨
     (t.runState = some .faulted ∧ t.faultRecord.isSome = true ∧ t.output = s.output))

/-! ### Faults (60_exceptions) -/

/-- R246, R116: fault entry is precise. A step that enters Faulted sets the run state and the fault record and changes
nothing else, but for the answer an IN_N or IN_S consumed before it faulted. -/
def Obligations.FaultEntryIsPrecise : Prop :=
  ∀ s t : State, s.runState = some .running → step s = .next t → t.runState = some .faulted →
    ∃ f, t = { s with runState := some .faulted, faultRecord := some f } ∨
      (∃ a rest, s.nextInstr = .ok .inN ∧ s.numAnswers = a :: rest ∧
        t = { s with
          runState := some .faulted, faultRecord := some f, inputWait := none, numAnswers := rest
          consumed := s.consumed ++ [.num a] }) ∨
      (∃ b a rest, s.nextInstr = .ok (.inS b) ∧ s.strAnswers = a :: rest ∧
        t = { s with
          runState := some .faulted, faultRecord := some f, inputWait := none, strAnswers := rest
          consumed := s.consumed ++ [.str a] })

/-- R240: the numbers and the recorded information of every cause, as the status port shows them. -/
def Obligations.FaultCodesOfTheStatusPort : Prop :=
  (∀ s : State, s.faultRecord = none → s.faultKindCode = 0) ∧
  ∀ (f : FaultRecord) (s : State), s.faultRecord = some f →
    (s.faultKindCode, f.causeCode, f.info) =
      match f with
      | .malformed => (1, 1, none)
      | .endOfInput => (1, 2, none)
      | .stackFull sp => (2, 1, some sp.toNat)
      | .stackEmpty sp => (2, 2, some sp.toNat)
      | .unknownRegister i => (2, 3, some i)
      | .outOfBounds a => (2, 4, some a.toNat)
      | .fetchOutOfBounds ip => (2, 5, some ip.toNat)
      | .badStackPointer sp => (2, 6, some sp.toNat)
      | .invalidOpcode op => (3, 0, some op.toNat)

/-- R242: which faults a handler can raise, and which the fetch and the dispatch. -/
def Obligations.FaultsEachInstructionCanRaise : Prop :=
  (∀ (i : Instr) (s t : State) (f : FaultRecord), s.runState = some .running → exec i s = .next t →
    t.runState = some .faulted → t.faultRecord = some f →
    match i with
    | .halt | .outN | .jmp _ | .jgr _ | .jge _ | .jeq _ | .jne _ | .jle _ | .jls _ => False
    | .inN => f = .malformed ∨ f = .endOfInput
    | .inS _ => f = .malformed ∨ f = .endOfInput ∨ ∃ a, f = .outOfBounds a
    | .outS _ => ∃ a, f = .outOfBounds a
    | .add _ _ | .sub _ _ | .mul _ _ | .div _ _ | .con _ => ∃ k, f = .unknownRegister k
    | .push _ => (∃ k, f = .unknownRegister k) ∨ (∃ sp, f = .stackFull sp) ∨ ∃ sp, f = .badStackPointer sp
    | .pop _ => (∃ k, f = .unknownRegister k) ∨ (∃ sp, f = .stackEmpty sp) ∨ ∃ sp, f = .badStackPointer sp
    | .ld _ _ | .st _ _ => (∃ k, f = .unknownRegister k) ∨ ∃ a, f = .outOfBounds a) ∧
  (∀ (s : State) (f : FaultRecord), s.nextInstr = .error f →
    (∃ ip, f = .fetchOutOfBounds ip) ∨ ∃ op, f = .invalidOpcode op)

/-- R244: when several faults apply, the first in the rule's order is the one recorded. -/
def Obligations.FaultPriority : Prop :=
  ∀ s : State, s.discarded = false → s.runState = some .running →
    let faults := fun (f : FaultRecord) => ∃ t, step s = .next t ∧ t.runState = some .faulted ∧ t.faultRecord = some f
    (50000 < (s.read .ip).toNat → faults (.fetchOutOfBounds (s.read .ip))) ∧
    ((s.read .ip).toNat ≤ 50000 → ∀ op,
      decode (Memory.read s.mem (s.read .ip).toNat) = .error (.invalidOpcode op) → faults (.invalidOpcode op)) ∧
    (∀ i, s.nextInstr = .ok i →
      (∀ k, Instr.badSelector i = some k → faults (.unknownRegister k)) ∧
      (Instr.badSelector i = none →
        (∀ fr, i = .push fr → (s.read .sp).toNat ≤ 30000 → faults (.stackFull (s.read .sp))) ∧
        (∀ fr, i = .push fr → 40000 < (s.read .sp).toNat → faults (.badStackPointer (s.read .sp))) ∧
        (∀ fr, i = .pop fr → 40000 ≤ (s.read .sp).toNat → faults (.stackEmpty (s.read .sp))) ∧
        (∀ fr, i = .pop fr → (s.read .sp).toNat < 30000 → faults (.badStackPointer (s.read .sp))) ∧
        (∀ a, ((∃ fr, i = .ld fr a) ∨ (∃ fr, i = .st fr a) ∨ i = .inS a ∨ i = .outS a) →
          a.toNat < 40001 ∨ 50000 < a.toNat → faults (.outOfBounds (a.setWidth 64))) ∧
        (∀ a, i = .outS a → 40001 ≤ a.toNat → a.toNat ≤ 50000 → 50001 - a.toNat < (s.read .acc).toNat →
          faults (.outOfBounds 50001)) ∧
        (∀ rest, i = .inN → s.numAnswers = .malformed :: rest → faults .malformed) ∧
        (∀ rest, i = .inN → s.numAnswers = .endOfInput :: rest → faults .endOfInput) ∧
        (∀ a rest, i = .inS a → 40001 ≤ a.toNat → a.toNat ≤ 50000 → s.strAnswers = .malformed :: rest →
          faults .malformed) ∧
        (∀ a rest, i = .inS a → 40001 ≤ a.toNat → a.toNat ≤ 50000 → s.strAnswers = .endOfInput :: rest →
          faults .endOfInput) ∧
        (∀ a cs rest, i = .inS a → 40001 ≤ a.toNat → a.toNat ≤ 50000 → s.strAnswers = .chars cs :: rest →
          50001 - a.toNat < cs.length → faults (.outOfBounds 50001))))

/-! ### Registers and reset (10_state, 70_reset) -/

/-- R117 (with R22, R93): the selector helpers; a value 0..10 names the register of that index, any other raises
`UnknownRegister`. -/
def Obligations.SelectorsNameElevenRegisters : Prop :=
  (Reg.ofIndex 0 = some .r0 ∧ Reg.ofIndex 1 = some .r1 ∧ Reg.ofIndex 2 = some .r2 ∧ Reg.ofIndex 3 = some .r3 ∧
    Reg.ofIndex 4 = some .r4 ∧ Reg.ofIndex 5 = some .r5 ∧ Reg.ofIndex 6 = some .r6 ∧ Reg.ofIndex 7 = some .r7 ∧
    Reg.ofIndex 8 = some .ip ∧ Reg.ofIndex 9 = some .sp ∧ Reg.ofIndex 10 = some .acc) ∧
  ∀ s : State,
    (∀ i : NarrowSel,
      (i.toNat ≤ 10 → ∃ r, Reg.ofIndex i.toNat = some r ∧ s.regNarrow i = .ok (s.read r)) ∧
      (10 < i.toNat → s.regNarrow i = .error (.unknownRegister i.toNat))) ∧
    (∀ i : FullSel,
      (i.toNat ≤ 10 → ∃ r, Reg.ofIndex i.toNat = some r ∧ s.regFull i = .ok (s.read r) ∧ checkFull i = .ok r) ∧
      (10 < i.toNat → s.regFull i = .error (.unknownRegister i.toNat) ∧
        checkFull i = .error (.unknownRegister i.toNat)))

/-- R20, R21: a register is an ordinary cell, none hard-wired: a read gives the last value written, a write touches no
other register and nothing else. -/
def Obligations.RegistersAreStorageCells : Prop :=
  ∀ (s : State) (r q : Reg) (v : Word),
    (s.write r v).read q = (if q = r then v else s.read q) ∧
    s.write r v = { s with regs := (s.write r v).regs }

/-- R32: every piece of state after reset, and the run state after a load. -/
def Obligations.ResetValues : Prop :=
  (∀ r : Reg, State.reset.read r = if r = .sp then 40000 else 0) ∧
  (∀ a, Memory.read State.reset.mem a = 0) ∧
  State.reset.runState = none ∧ State.reset.faultRecord = none ∧ State.reset.inputWait = none ∧
  ∀ (p : List Word) (t : State), hostTransact (.load p) State.reset = .next t → t.runState = some .ready

/-- R272: load copies the words verbatim from address 0, checks none of them, and makes the session Ready; a program
of more than 30001 words is refused; the empty program's run faults `InvalidOpcode(0x00)`. -/
def Obligations.LoadCopiesTheProgram : Prop :=
  (∀ p : List Word, p.length ≤ 30001 →
    ∃ t, hostTransact (.load p) State.reset = .next t ∧
      (∀ (k : Nat) (hk : k < p.length), Memory.read t.mem k = p[k]) ∧
      (∀ k, p.length ≤ k → Memory.read t.mem k = 0) ∧
      t.runState = some .ready ∧ t.read .ip = 0 ∧ t = { State.reset with mem := t.mem, runState := some .ready }) ∧
  (∀ p : List Word, 30001 < p.length →
    hostTransact (.load p) State.reset = .refused (.programTooLong p.length)) ∧
  (∀ t u, hostTransact (.load []) State.reset = .next t → hostTransact .run t = .next u →
    step u = .next { u with runState := some .faulted, faultRecord := some (.invalidOpcode 0) })

/-- R273: presets in Ready, of any register but `ip` and of any memory word; none in another run state, and `ip` keeps
its value. R273 says only that the host may not do the others; that they are refused, by that name, is the model's form
of it (log entry 9). -/
def Obligations.PresetsBeforeTheRun : Prop :=
  ∀ s : State, s.discarded = false →
    (s.runState = some .ready →
      (∀ r v, r ≠ .ip → hostTransact (.presetReg r v) s = .next (s.write r v)) ∧
      (∀ v, hostTransact (.presetReg .ip v) s = .refused .hostTransactionNotAllowed) ∧
      (∀ a v, a ≤ 50000 → Memory.wf s.mem = true →
        ∃ m, hostTransact (.presetMem a v) s = .next { s with mem := m } ∧
          ∀ x, Memory.read m x = if x = a then v else Memory.read s.mem x) ∧
      (∀ h t, ((∃ r v, h = .presetReg r v) ∨ ∃ a v, h = .presetMem a v) → hostTransact h s = .next t →
        t.read .ip = s.read .ip)) ∧
    (s.runState ≠ some .ready →
      ∀ h, ((∃ r v, h = .presetReg r v) ∨ ∃ a v, h = .presetMem a v) →
        hostTransact h s = .refused .hostTransactionNotAllowed)

/-- R275: the run command moves Ready to Running and changes nothing else; the first fetch is at address 0, whatever
was preset (for a state that meets the session's invariant). -/
def Obligations.RunStartsAtAddressZero : Prop :=
  (∀ s : State, s.discarded = false → s.runState = some .ready →
    hostTransact .run s = .next { s with runState := some .running }) ∧
  (∀ s t : State, s.inv = true → hostTransact HostTransaction.run s = .next t →
    t.fetch = .ok (Memory.read t.mem 0))

/-! ### Whole-machine rules -/

/-- The invariant holds at reset (R30, R31, R32). -/
def Obligations.ResetMeetsTheSessionInvariant : Prop :=
  State.reset.inv = true

/-- Every step keeps the invariant: canonical memory, the fault record empty except in Faulted (R30), a pending wait
only at a running IN_N or IN_S (R31), `ip` 0 and no traffic before the run (R29). -/
def Obligations.EveryStepKeepsTheSessionInvariant : Prop :=
  ∀ s t : State, s.inv = true → step s = .next t → t.inv = true

/-- Every host transaction keeps the invariant (R40, R272, R273). -/
def Obligations.HostTransactionsKeepTheSessionInvariant : Prop :=
  ∀ (h : HostTransaction) (s t : State), s.inv = true → hostTransact h s = .next t → t.inv = true

/-- R64, R51: no run, of any length and from any state, changes a word of the code zone. -/
def Obligations.LoadedCodeIsImmutable : Prop :=
  ∀ (k : Nat) (s t : State), Host.Core.run core k s = .next t →
    ∀ x, x ≤ 30000 → Memory.read t.mem x = Memory.read s.mem x

/-- R45: input answers are consumed in the order given and recorded in that order, and output is only ever appended
to, over any number of steps. -/
def Obligations.TrafficIsAnOrderedSequence : Prop :=
  ∀ (k : Nat) (s t : State), Host.Core.run core k s = .next t →
    ∃ (ins : List InputEvent) (outs : List OutputEvent),
      t.consumed = s.consumed ++ ins ∧ t.output = s.output ++ outs ∧ ins.length + outs.length ≤ k ∧
      s.numAnswers = ins.filterMap InputEvent.numAnswer ++ t.numAnswers ∧
      s.strAnswers = ins.filterMap InputEvent.strAnswer ++ t.strAnswers
end

