-- ==== Sys2Proof/Laws/Codec.lean ====
section
/-!
SUPPORT. The encoder as a concatenation of fields, and the opcode table as a one-to-one map.
-/

namespace Sys2Proof

/-- The rotations place the fields side by side, the reserved bits zero (30_encoding R82, R89). -/
theorem encodeFields_eq_append (op : BitVec 8) (na nb : NarrowSel) (fr : FullSel) (addr : AddrField) :
    encodeFields op na nb fr addr = op ++ na ++ nb ++ fr ++ (0 : BitVec 11) ++ addr := by
  ext i hi
  have : i < 64 := hi
  simp only [encodeFields, rotr64, rotl64, rotOpcode, rotNarrowA, rotNarrowB, rotFull, rotAddr,
    ← BitVec.getLsbD_eq_getElem, BitVec.getLsbD_append]
  interval_cases i <;> simp

/-- An encoded word is canonical: its reserved bits 42:32 are zero (R89). -/
theorem encodeFields_reserved (op : BitVec 8) (na nb : NarrowSel) (fr : FullSel) (addr : AddrField) :
    (encodeFields op na nb fr addr).extractLsb' 32 11 = 0 := by
  rw [encodeFields_eq_append]
  ext i hi
  have : i < 11 := hi
  simp only [← BitVec.getLsbD_eq_getElem, BitVec.getLsbD_extractLsb', BitVec.getLsbD_append]
  interval_cases i <;> simp

/-- Every opcode is found under its number. -/
@[simp] theorem Mnemonic.ofOpcode_opcode (m : Mnemonic) : Mnemonic.ofOpcode m.opcode = some m := by
  cases m <;> rfl

/-- No two opcodes share a number. -/
theorem Mnemonic.opcode_injective {m n : Mnemonic} (h : m.opcode = n.opcode) : m = n := by
  have := congrArg Mnemonic.ofOpcode h
  simpa using this

/-- Only an opcode's own number finds it. -/
theorem Mnemonic.opcode_of_ofOpcode {op : BitVec 8} {m : Mnemonic} (h : Mnemonic.ofOpcode op = some m) :
    m.opcode = op := by
  have := List.find?_some h
  simpa using this

/-- An instruction built from a word has the opcode it was built for. -/
@[simp] theorem Mnemonic.mnemonic_fromWord (m : Mnemonic) (w : Word) : (m.fromWord w).mnemonic = m := by
  cases m <;> rfl

/-- What decoding can answer. -/
theorem decode_cases (w : Word) :
    (∃ m, Mnemonic.ofOpcode (decodeOpcode w) = some m ∧ decode w = .ok (m.fromWord w)) ∨
    (Mnemonic.ofOpcode (decodeOpcode w) = none ∧ decode w = .error (.invalidOpcode (decodeOpcode w))) := by
  unfold decode
  cases h : Mnemonic.ofOpcode (decodeOpcode w) with
  | some m => exact .inl ⟨m, rfl, rfl⟩
  | none => exact .inr ⟨rfl, rfl⟩

end Sys2Proof
end

