-- ==== Sys2Proof/Laws/Memory.lean ====
section
/-!
SUPPORT. The memory bank: a read after a write, and the canonical form, which every memory operation keeps.
-/

namespace Sys2Proof.Machine

@[simp] theorem Memory.read_nil (a : Nat) : Memory.read [] a = memUnlisted := rfl

/-! ### The canonical form -/

theorem Memory.wfFrom_cons {low k : Nat} {v : Word} {rest : Memory} :
    Memory.wfFrom low ((k, v) :: rest) = true ↔
      low ≤ k ∧ k ≤ 50000 ∧ v ≠ memUnlisted ∧ Memory.wfFrom (k + 1) rest = true := by
  show _ ↔ low ≤ k ∧ k ≤ memTop ∧ v ≠ memUnlisted ∧ Memory.wfFrom (k + 1) rest = true
  simp [Memory.wfFrom, and_assoc]

theorem Memory.wfFrom_mono {m : Memory} {low low' : Nat} (h : low' ≤ low) (hm : Memory.wfFrom low m = true) :
    Memory.wfFrom low' m = true := by
  cases m with
  | nil => rfl
  | cons c rest =>
    obtain ⟨k, v⟩ := c
    rw [Memory.wfFrom_cons] at hm ⊢
    exact ⟨h.trans hm.1, hm.2⟩

/-- An address below every listed one reads as unlisted. -/
theorem Memory.read_below {m : Memory} {low a : Nat} (hm : Memory.wfFrom low m = true) (h : a < low) :
    Memory.read m a = memUnlisted := by
  induction m generalizing low with
  | nil => rfl
  | cons c rest ih =>
    obtain ⟨k, v⟩ := c
    rw [Memory.wfFrom_cons] at hm
    have hk : k ≠ a := by omega
    simp only [Memory.read, hk, if_false]
    exact ih hm.2.2.2 (by omega)

/-- A write keeps the canonical form. -/
theorem Memory.wfFrom_write {m : Memory} {low a : Nat} (v : Word) (hm : Memory.wfFrom low m = true)
    (hlow : low ≤ a) (ha : a ≤ 50000) : Memory.wfFrom low (Memory.write m a v) = true := by
  induction m generalizing low with
  | nil =>
    unfold Memory.write
    split
    · rfl
    · rw [Memory.wfFrom_cons]; exact ⟨hlow, ha, ‹_›, rfl⟩
  | cons c rest ih =>
    obtain ⟨k, x⟩ := c
    have h := Memory.wfFrom_cons.1 hm
    unfold Memory.write
    split
    · split
      · exact hm
      · rw [Memory.wfFrom_cons, Memory.wfFrom_cons]
        exact ⟨hlow, ha, ‹_›, by omega, h.2⟩
    · split
      · split
        · exact Memory.wfFrom_mono (by omega) h.2.2.2
        · rw [Memory.wfFrom_cons]
          subst a
          exact ⟨hlow, ha, ‹_›, h.2.2.2⟩
      · rw [Memory.wfFrom_cons]
        exact ⟨h.1, h.2.1, h.2.2.1, ih h.2.2.2 (by omega)⟩

theorem Memory.wf_write {m : Memory} {a : Nat} (v : Word) (hm : Memory.wf m = true) (ha : a ≤ 50000) :
    Memory.wf (Memory.write m a v) = true :=
  Memory.wfFrom_write v hm (Nat.zero_le a) ha

theorem Memory.wf_writeAll {m : Memory} {a : Nat} (vs : List Word) (hm : Memory.wf m = true)
    (ha : a + vs.length ≤ 50001) : Memory.wf (Memory.writeAll m a vs) = true := by
  induction vs generalizing m a with
  | nil => exact hm
  | cons v vs ih =>
    simp only [List.length_cons] at ha
    exact ih (Memory.wf_write v hm (by omega)) (by omega)

/-- The memory at reset is in canonical form. -/
theorem Memory.wf_reset : Memory.wf State.reset.mem = true := rfl

/-! ### Read after write -/

/-- A write leaves every other word alone. -/
theorem Memory.read_write_ne {m : Memory} {a b : Nat} (v : Word) (h : b ≠ a) :
    Memory.read (Memory.write m a v) b = Memory.read m b := by
  induction m with
  | nil =>
    unfold Memory.write
    split <;> simp [Memory.read, Ne.symm h]
  | cons c rest ih =>
    obtain ⟨k, x⟩ := c
    unfold Memory.write
    split
    · split <;> simp [Memory.read, Ne.symm h]
    · split
      · subst a
        split <;> simp [Memory.read, Ne.symm h]
      · simp [Memory.read, ih]

/-- A write is read back. -/
theorem Memory.read_write_same {m : Memory} {low a : Nat} (v : Word) (hm : Memory.wfFrom low m = true) :
    Memory.read (Memory.write m a v) a = v := by
  induction m generalizing low with
  | nil =>
    unfold Memory.write
    split
    · simp [*]
    · simp [Memory.read]
  | cons c rest ih =>
    obtain ⟨k, x⟩ := c
    have h := Memory.wfFrom_cons.1 hm
    unfold Memory.write
    split
    · split
      · rw [Memory.read_below (low := k) (Memory.wfFrom_cons.2 ⟨le_refl k, h.2⟩) ‹_›]
        exact (‹v = memUnlisted›).symm
      · simp [Memory.read]
    · split
      · split
        · rw [Memory.read_below h.2.2.2 (by omega)]
          exact (‹v = memUnlisted›).symm
        · simp [Memory.read]
      · have hk : k ≠ a := fun e => ‹¬ a = k› e.symm
        simp only [Memory.read, hk, if_false]
        exact ih h.2.2.2

theorem Memory.read_write {m : Memory} {a b : Nat} (v : Word) (hm : Memory.wf m = true) :
    Memory.read (Memory.write m a v) b = if b = a then v else Memory.read m b := by
  split
  · subst b; exact Memory.read_write_same v hm
  · exact Memory.read_write_ne v ‹_›

/-- Words outside the range of a string are left alone. -/
theorem Memory.read_writeAll_outside {m : Memory} {a b : Nat} (vs : List Word)
    (h : b < a ∨ a + vs.length ≤ b) : Memory.read (Memory.writeAll m a vs) b = Memory.read m b := by
  induction vs generalizing m a with
  | nil => rfl
  | cons v vs ih =>
    simp only [List.length_cons] at h
    rw [Memory.writeAll, ih (by omega), Memory.read_write_ne v (by omega)]

/-- Each word of a string is read back at its place. -/
theorem Memory.read_writeAll_inside {m : Memory} {a k : Nat} (vs : List Word) (hm : Memory.wf m = true)
    (ha : a + vs.length ≤ 50001) (hk : k < vs.length) :
    Memory.read (Memory.writeAll m a vs) (a + k) = vs[k] := by
  induction vs generalizing m a k with
  | nil => simp at hk
  | cons v vs ih =>
    simp only [List.length_cons] at ha hk
    have hw := Memory.wf_write v hm (a := a) (by omega)
    rw [Memory.writeAll]
    cases k with
    | zero =>
      exact (Memory.read_writeAll_outside vs (a := a + 1) (b := a) (Or.inl (by omega))).trans
        (Memory.read_write_same v hm)
    | succ k =>
      have := ih (a := a + 1) (k := k) hw (by omega) (by omega)
      rw [show a + (k + 1) = a + 1 + k by omega, this]
      rfl

theorem Memory.readAll_eq_map (m : Memory) (a n : Nat) :
    Memory.readAll m a n = (List.range n).map (fun k => Memory.read m (a + k)) := by
  induction n generalizing a with
  | zero => rfl
  | succ n ih =>
    rw [Memory.readAll, ih, List.range_succ_eq_map]
    simp [Function.comp_def, Nat.add_assoc, Nat.add_comm 1]

/-! ### Equal memories are equal data -/

/-- Two memories in canonical form that read alike are the same list. -/
theorem Memory.ext_wfFrom {m n : Memory} {low : Nat} (hm : Memory.wfFrom low m = true)
    (hn : Memory.wfFrom low n = true) (h : ∀ a, Memory.read m a = Memory.read n a) : m = n := by
  induction m generalizing n low with
  | nil =>
    cases n with
    | nil => rfl
    | cons c rest =>
      obtain ⟨k, v⟩ := c
      have := h k
      simp only [Memory.read, if_true] at this
      exact absurd this.symm (Memory.wfFrom_cons.1 hn).2.2.1
  | cons c rest ih =>
    obtain ⟨k, v⟩ := c
    have h1 := Memory.wfFrom_cons.1 hm
    cases n with
    | nil =>
      have := h k
      simp only [Memory.read, if_true] at this
      exact absurd this h1.2.2.1
    | cons d rest' =>
      obtain ⟨k', v'⟩ := d
      have h2 := Memory.wfFrom_cons.1 hn
      have hk : k = k' := by
        rcases Nat.lt_trichotomy k k' with hlt | heq | hgt
        · have := h k
          rw [Memory.read_below (m := (k', v') :: rest') (low := k')
            (Memory.wfFrom_cons.2 ⟨le_refl _, h2.2⟩) hlt] at this
          simp only [Memory.read, if_true] at this
          exact absurd this h1.2.2.1
        · exact heq
        · have := h k'
          rw [Memory.read_below (m := (k, v) :: rest) (low := k)
            (Memory.wfFrom_cons.2 ⟨le_refl _, h1.2⟩) hgt] at this
          simp only [Memory.read, if_true] at this
          exact absurd this.symm h2.2.2.1
      subst k'
      have hv := h k
      simp only [Memory.read, if_true] at hv
      subst v'
      rw [ih h1.2.2.2 h2.2.2.2 fun a => ?_]
      rcases Nat.lt_or_ge k a with hlt | hge
      · have := h a
        have hne : k ≠ a := by omega
        simpa only [Memory.read, hne, if_false] using this
      · rw [Memory.read_below h1.2.2.2 (by omega), Memory.read_below h2.2.2.2 (by omega)]

theorem Memory.ext_wf {m n : Memory} (hm : Memory.wf m = true) (hn : Memory.wf n = true)
    (h : ∀ a, Memory.read m a = Memory.read n a) : m = n :=
  Memory.ext_wfFrom hm hn h

/-- Writing back what a word reads as changes nothing. -/
theorem Memory.write_read {m : Memory} {a : Nat} (hm : Memory.wf m = true) (ha : a ≤ 50000) :
    Memory.write m a (Memory.read m a) = m := by
  refine Memory.ext_wf (Memory.wf_write _ hm ha) hm fun b => ?_
  rw [Memory.read_write _ hm]
  split
  · subst b; rfl
  · rfl

end Sys2Proof.Machine
end

