-- ==== Sys2Proof/Laws/State.lean ====
section
/-!
SUPPORT. The small lemmas of State: each field after each update, and registers read after a write.
-/

namespace Sys2Proof.Machine

section Fields

variable (s : State)

/-! ### `State.write` -/

@[simp] theorem State.write_regs (r : Reg) (v : Word) : (s.write r v).regs = s.regs.write r v := rfl
@[simp] theorem State.write_mem (r : Reg) (v : Word) : (s.write r v).mem = s.mem := rfl
@[simp] theorem State.write_runState (r : Reg) (v : Word) : (s.write r v).runState = s.runState := rfl
@[simp] theorem State.write_faultRecord (r : Reg) (v : Word) : (s.write r v).faultRecord = s.faultRecord := rfl
@[simp] theorem State.write_inputWait (r : Reg) (v : Word) : (s.write r v).inputWait = s.inputWait := rfl
@[simp] theorem State.write_numAnswers (r : Reg) (v : Word) : (s.write r v).numAnswers = s.numAnswers := rfl
@[simp] theorem State.write_strAnswers (r : Reg) (v : Word) : (s.write r v).strAnswers = s.strAnswers := rfl
@[simp] theorem State.write_consumed (r : Reg) (v : Word) : (s.write r v).consumed = s.consumed := rfl
@[simp] theorem State.write_output (r : Reg) (v : Word) : (s.write r v).output = s.output := rfl
@[simp] theorem State.write_discarded (r : Reg) (v : Word) : (s.write r v).discarded = s.discarded := rfl

/-! ### `State.advance` -/

@[simp] theorem State.advance_regs : (s.advance).regs = s.regs.write .ip (s.regs.ip + 1) := rfl
@[simp] theorem State.advance_mem : (s.advance).mem = s.mem := rfl
@[simp] theorem State.advance_runState : (s.advance).runState = s.runState := rfl
@[simp] theorem State.advance_faultRecord : (s.advance).faultRecord = s.faultRecord := rfl
@[simp] theorem State.advance_inputWait : (s.advance).inputWait = s.inputWait := rfl
@[simp] theorem State.advance_numAnswers : (s.advance).numAnswers = s.numAnswers := rfl
@[simp] theorem State.advance_strAnswers : (s.advance).strAnswers = s.strAnswers := rfl
@[simp] theorem State.advance_consumed : (s.advance).consumed = s.consumed := rfl
@[simp] theorem State.advance_output : (s.advance).output = s.output := rfl
@[simp] theorem State.advance_discarded : (s.advance).discarded = s.discarded := rfl

/-! ### `State.raise` -/

@[simp] theorem State.raise_regs (f : FaultRecord) : (s.raise f).regs = s.regs := rfl
@[simp] theorem State.raise_mem (f : FaultRecord) : (s.raise f).mem = s.mem := rfl
@[simp] theorem State.raise_runState (f : FaultRecord) : (s.raise f).runState = some .faulted := rfl
@[simp] theorem State.raise_faultRecord (f : FaultRecord) : (s.raise f).faultRecord = some f := rfl
@[simp] theorem State.raise_inputWait (f : FaultRecord) : (s.raise f).inputWait = s.inputWait := rfl
@[simp] theorem State.raise_numAnswers (f : FaultRecord) : (s.raise f).numAnswers = s.numAnswers := rfl
@[simp] theorem State.raise_strAnswers (f : FaultRecord) : (s.raise f).strAnswers = s.strAnswers := rfl
@[simp] theorem State.raise_consumed (f : FaultRecord) : (s.raise f).consumed = s.consumed := rfl
@[simp] theorem State.raise_output (f : FaultRecord) : (s.raise f).output = s.output := rfl
@[simp] theorem State.raise_discarded (f : FaultRecord) : (s.raise f).discarded = s.discarded := rfl

/-! ### `State.enterHalted` -/

@[simp] theorem State.enterHalted_regs : (s.enterHalted).regs = s.regs := rfl
@[simp] theorem State.enterHalted_mem : (s.enterHalted).mem = s.mem := rfl
@[simp] theorem State.enterHalted_runState : (s.enterHalted).runState = some .halted := rfl
@[simp] theorem State.enterHalted_faultRecord : (s.enterHalted).faultRecord = s.faultRecord := rfl
@[simp] theorem State.enterHalted_inputWait : (s.enterHalted).inputWait = s.inputWait := rfl
@[simp] theorem State.enterHalted_numAnswers : (s.enterHalted).numAnswers = s.numAnswers := rfl
@[simp] theorem State.enterHalted_strAnswers : (s.enterHalted).strAnswers = s.strAnswers := rfl
@[simp] theorem State.enterHalted_consumed : (s.enterHalted).consumed = s.consumed := rfl
@[simp] theorem State.enterHalted_output : (s.enterHalted).output = s.output := rfl
@[simp] theorem State.enterHalted_discarded : (s.enterHalted).discarded = s.discarded := rfl

/-! ### `State.await` -/

@[simp] theorem State.await_regs (q : InputRequest) : (s.await q).regs = s.regs := rfl
@[simp] theorem State.await_mem (q : InputRequest) : (s.await q).mem = s.mem := rfl
@[simp] theorem State.await_runState (q : InputRequest) : (s.await q).runState = s.runState := rfl
@[simp] theorem State.await_faultRecord (q : InputRequest) : (s.await q).faultRecord = s.faultRecord := rfl
@[simp] theorem State.await_inputWait (q : InputRequest) : (s.await q).inputWait = some q := rfl
@[simp] theorem State.await_numAnswers (q : InputRequest) : (s.await q).numAnswers = s.numAnswers := rfl
@[simp] theorem State.await_strAnswers (q : InputRequest) : (s.await q).strAnswers = s.strAnswers := rfl
@[simp] theorem State.await_consumed (q : InputRequest) : (s.await q).consumed = s.consumed := rfl
@[simp] theorem State.await_output (q : InputRequest) : (s.await q).output = s.output := rfl
@[simp] theorem State.await_discarded (q : InputRequest) : (s.await q).discarded = s.discarded := rfl

/-! ### `State.consumeNum` -/

@[simp] theorem State.consumeNum_regs (a : NumAnswer) (rest : List NumAnswer) : (s.consumeNum a rest).regs = s.regs := rfl
@[simp] theorem State.consumeNum_mem (a : NumAnswer) (rest : List NumAnswer) : (s.consumeNum a rest).mem = s.mem := rfl
@[simp] theorem State.consumeNum_runState (a : NumAnswer) (rest : List NumAnswer) : (s.consumeNum a rest).runState = s.runState := rfl
@[simp] theorem State.consumeNum_faultRecord (a : NumAnswer) (rest : List NumAnswer) : (s.consumeNum a rest).faultRecord = s.faultRecord := rfl
@[simp] theorem State.consumeNum_inputWait (a : NumAnswer) (rest : List NumAnswer) : (s.consumeNum a rest).inputWait = none := rfl
@[simp] theorem State.consumeNum_numAnswers (a : NumAnswer) (rest : List NumAnswer) : (s.consumeNum a rest).numAnswers = rest := rfl
@[simp] theorem State.consumeNum_strAnswers (a : NumAnswer) (rest : List NumAnswer) : (s.consumeNum a rest).strAnswers = s.strAnswers := rfl
@[simp] theorem State.consumeNum_consumed (a : NumAnswer) (rest : List NumAnswer) : (s.consumeNum a rest).consumed = s.consumed ++ [.num a] := rfl
@[simp] theorem State.consumeNum_output (a : NumAnswer) (rest : List NumAnswer) : (s.consumeNum a rest).output = s.output := rfl
@[simp] theorem State.consumeNum_discarded (a : NumAnswer) (rest : List NumAnswer) : (s.consumeNum a rest).discarded = s.discarded := rfl

/-! ### `State.consumeStr` -/

@[simp] theorem State.consumeStr_regs (a : StrAnswer) (rest : List StrAnswer) : (s.consumeStr a rest).regs = s.regs := rfl
@[simp] theorem State.consumeStr_mem (a : StrAnswer) (rest : List StrAnswer) : (s.consumeStr a rest).mem = s.mem := rfl
@[simp] theorem State.consumeStr_runState (a : StrAnswer) (rest : List StrAnswer) : (s.consumeStr a rest).runState = s.runState := rfl
@[simp] theorem State.consumeStr_faultRecord (a : StrAnswer) (rest : List StrAnswer) : (s.consumeStr a rest).faultRecord = s.faultRecord := rfl
@[simp] theorem State.consumeStr_inputWait (a : StrAnswer) (rest : List StrAnswer) : (s.consumeStr a rest).inputWait = none := rfl
@[simp] theorem State.consumeStr_numAnswers (a : StrAnswer) (rest : List StrAnswer) : (s.consumeStr a rest).numAnswers = s.numAnswers := rfl
@[simp] theorem State.consumeStr_strAnswers (a : StrAnswer) (rest : List StrAnswer) : (s.consumeStr a rest).strAnswers = rest := rfl
@[simp] theorem State.consumeStr_consumed (a : StrAnswer) (rest : List StrAnswer) : (s.consumeStr a rest).consumed = s.consumed ++ [.str a] := rfl
@[simp] theorem State.consumeStr_output (a : StrAnswer) (rest : List StrAnswer) : (s.consumeStr a rest).output = s.output := rfl
@[simp] theorem State.consumeStr_discarded (a : StrAnswer) (rest : List StrAnswer) : (s.consumeStr a rest).discarded = s.discarded := rfl

/-! ### `State.emit` -/

@[simp] theorem State.emit_regs (e : OutputEvent) : (s.emit e).regs = s.regs := rfl
@[simp] theorem State.emit_mem (e : OutputEvent) : (s.emit e).mem = s.mem := rfl
@[simp] theorem State.emit_runState (e : OutputEvent) : (s.emit e).runState = s.runState := rfl
@[simp] theorem State.emit_faultRecord (e : OutputEvent) : (s.emit e).faultRecord = s.faultRecord := rfl
@[simp] theorem State.emit_inputWait (e : OutputEvent) : (s.emit e).inputWait = s.inputWait := rfl
@[simp] theorem State.emit_numAnswers (e : OutputEvent) : (s.emit e).numAnswers = s.numAnswers := rfl
@[simp] theorem State.emit_strAnswers (e : OutputEvent) : (s.emit e).strAnswers = s.strAnswers := rfl
@[simp] theorem State.emit_consumed (e : OutputEvent) : (s.emit e).consumed = s.consumed := rfl
@[simp] theorem State.emit_output (e : OutputEvent) : (s.emit e).output = s.output ++ [e] := rfl
@[simp] theorem State.emit_discarded (e : OutputEvent) : (s.emit e).discarded = s.discarded := rfl

/-! ### `State.moveTo` -/

@[simp] theorem State.moveTo_mem (d : Reg) (v : Word) : (s.moveTo d v).mem = s.mem := by
  unfold State.moveTo; split <;> rfl
@[simp] theorem State.moveTo_runState (d : Reg) (v : Word) : (s.moveTo d v).runState = s.runState := by
  unfold State.moveTo; split <;> rfl
@[simp] theorem State.moveTo_faultRecord (d : Reg) (v : Word) : (s.moveTo d v).faultRecord = s.faultRecord := by
  unfold State.moveTo; split <;> rfl
@[simp] theorem State.moveTo_inputWait (d : Reg) (v : Word) : (s.moveTo d v).inputWait = s.inputWait := by
  unfold State.moveTo; split <;> rfl
@[simp] theorem State.moveTo_numAnswers (d : Reg) (v : Word) : (s.moveTo d v).numAnswers = s.numAnswers := by
  unfold State.moveTo; split <;> rfl
@[simp] theorem State.moveTo_strAnswers (d : Reg) (v : Word) : (s.moveTo d v).strAnswers = s.strAnswers := by
  unfold State.moveTo; split <;> rfl
@[simp] theorem State.moveTo_consumed (d : Reg) (v : Word) : (s.moveTo d v).consumed = s.consumed := by
  unfold State.moveTo; split <;> rfl
@[simp] theorem State.moveTo_output (d : Reg) (v : Word) : (s.moveTo d v).output = s.output := by
  unfold State.moveTo; split <;> rfl
@[simp] theorem State.moveTo_discarded (d : Reg) (v : Word) : (s.moveTo d v).discarded = s.discarded := by
  unfold State.moveTo; split <;> rfl

end Fields

/-! ### Registers -/

@[simp] theorem RegFile.read_write_same (f : RegFile) (r : Reg) (v : Word) : (f.write r v).read r = v := by
  cases r <;> rfl

@[simp] theorem RegFile.read_write_ne (f : RegFile) {r q : Reg} (v : Word) (h : q ≠ r) :
    (f.write r v).read q = f.read q := by
  cases r <;> cases q <;> first | rfl | exact absurd rfl h

theorem RegFile.ext_read {f g : RegFile} (h : ∀ r, f.read r = g.read r) : f = g := by
  cases f; cases g
  simp only [RegFile.mk.injEq]
  exact ⟨h .r0, h .r1, h .r2, h .r3, h .r4, h .r5, h .r6, h .r7, h .ip, h .sp, h .acc⟩

@[simp] theorem State.read_write_same (s : State) (r : Reg) (v : Word) : (s.write r v).read r = v :=
  RegFile.read_write_same _ _ _

@[simp] theorem State.read_write_ne (s : State) {r q : Reg} (v : Word) (h : q ≠ r) :
    (s.write r v).read q = s.read q :=
  RegFile.read_write_ne _ _ h

@[simp] theorem State.read_advance_ip (s : State) : s.advance.read .ip = s.read .ip + 1 := rfl

@[simp] theorem State.read_advance_ne (s : State) {r : Reg} (h : r ≠ .ip) : s.advance.read r = s.read r :=
  State.read_write_ne _ _ h

@[simp] theorem State.read_raise (s : State) (f : FaultRecord) (r : Reg) : (s.raise f).read r = s.read r := rfl

@[simp] theorem State.read_enterHalted (s : State) (r : Reg) : s.enterHalted.read r = s.read r := rfl

@[simp] theorem State.read_await (s : State) (q : InputRequest) (r : Reg) : (s.await q).read r = s.read r := rfl

@[simp] theorem State.read_consumeNum (s : State) (a : NumAnswer) (rest : List NumAnswer) (r : Reg) :
    (s.consumeNum a rest).read r = s.read r := rfl

@[simp] theorem State.read_consumeStr (s : State) (a : StrAnswer) (rest : List StrAnswer) (r : Reg) :
    (s.consumeStr a rest).read r = s.read r := rfl

@[simp] theorem State.read_emit (s : State) (e : OutputEvent) (r : Reg) : (s.emit e).read r = s.read r := rfl

/-- The register after a value is moved into a destination other than `ip`. -/
theorem State.read_moveTo_ne (s : State) {d r : Reg} (v : Word) (h : r ≠ d) (hip : r ≠ .ip) :
    (s.moveTo d v).read r = s.read r := by
  unfold State.moveTo
  split <;> simp [h, hip]

/-- A destination `ip` receives the value itself; any other destination leaves `ip + 1` (40_dispatch R115). -/
theorem State.read_moveTo_ip (s : State) (d : Reg) (v : Word) :
    (s.moveTo d v).read .ip = if d = .ip then v else s.read .ip + 1 := by
  unfold State.moveTo
  split
  · simp
  · rename_i h
    simp [Ne.symm h]

/-- The destination receives the value. -/
@[simp] theorem State.read_moveTo_same (s : State) (d : Reg) (v : Word) : (s.moveTo d v).read d = v := by
  unfold State.moveTo
  split
  · rename_i h; subst h; simp
  · rename_i h; simp [h]

end Sys2Proof.Machine
end

