-- ==== Sys2Proof/Laws/Ops.lean ====
section
/-!
SUPPORT. What each shared operation can do, said once: the checked memory primitives, the operand forms, the zone and
stack checks, fetch and decode, and the step.
-/

namespace Sys2Proof.Machine

/-! ### Sequencing of checks -/

@[simp] theorem Except.ok_bind' {α β : Type} (a : α) (f : α → Except FaultRecord β) :
    (Except.ok a >>= f) = f a := rfl

@[simp] theorem Except.error_bind' {α β : Type} (e : FaultRecord) (f : α → Except FaultRecord β) :
    ((Except.error e : Except FaultRecord α) >>= f) = Except.error e := rfl

@[simp] theorem Except.pure_eq_ok {α : Type} (a : α) : (pure a : Except FaultRecord α) = Except.ok a := rfl

@[simp] theorem State.finish_ok (s t : State) : s.finish (.ok t) = .next t := rfl

@[simp] theorem State.finish_error (s : State) (f : FaultRecord) : s.finish (.error f) = .next (s.raise f) := rfl

/-- A handler ends in its result, or in fault entry on the state it started from. -/
theorem State.finish_next {s t : State} {r : Except FaultRecord State} (h : s.finish r = .next t) :
    r = .ok t ∨ ∃ f, r = .error f ∧ t = s.raise f := by
  cases r with
  | ok u => simp only [State.finish_ok, Host.Outcome.next.injEq] at h; exact .inl (by rw [h])
  | error f => simp only [State.finish_error, Host.Outcome.next.injEq] at h; exact .inr ⟨f, rfl, h.symm⟩

/-- If two checks in sequence succeed, each did. -/
theorem Except.bind_eq_ok {α β : Type} {x : Except FaultRecord α} {f : α → Except FaultRecord β} {b : β} :
    (x >>= f) = .ok b ↔ ∃ a, x = .ok a ∧ f a = .ok b := by
  cases x <;> simp

/-- Two checks in sequence fail with the first that does. -/
theorem Except.bind_eq_error {α β : Type} {x : Except FaultRecord α} {f : α → Except FaultRecord β} {e : FaultRecord} :
    (x >>= f) = .error e ↔ x = .error e ∨ ∃ a, x = .ok a ∧ f a = .error e := by
  cases x <;> simp

/-! ### Selectors (40_dispatch R117) -/

/-- The values 0 to 10 name a register, and no other does (10_state R22). -/
theorem Reg.ofIndex_isSome (i : Nat) : (Reg.ofIndex i).isSome = true ↔ i ≤ 10 := by
  by_cases h : i ≤ 10
  · interval_cases i <;> simp [Reg.ofIndex]
  · have : Reg.ofIndex i = none := by
      unfold Reg.ofIndex
      split <;> first | rfl | omega
    simp [this, h]

theorem Reg.ofIndex_none {i : Nat} (h : 10 < i) : Reg.ofIndex i = none := by
  have := (Reg.ofIndex_isSome i).not.2 (by omega)
  simpa using this

/-- Index 8 is the only one that names `ip`. -/
theorem Reg.ofIndex_eq_ip {i : Nat} : Reg.ofIndex i = some .ip ↔ i = 8 := by
  constructor
  · intro h
    have : i ≤ 10 := (Reg.ofIndex_isSome i).1 (by simp [h])
    interval_cases i <;> simp_all [Reg.ofIndex]
  · rintro rfl; rfl

theorem checkSelector_ok {i : Nat} {r : Reg} (h : Reg.ofIndex i = some r) : checkSelector i = .ok r := by
  simp [checkSelector, h]

theorem checkSelector_error {i : Nat} (h : 10 < i) : checkSelector i = .error (.unknownRegister i) := by
  simp [checkSelector, Reg.ofIndex_none h]

theorem checkSelector_eq_ok {i : Nat} {r : Reg} : checkSelector i = .ok r ↔ Reg.ofIndex i = some r := by
  unfold checkSelector
  split <;> simp_all

theorem checkSelector_eq_error {i : Nat} {f : FaultRecord} :
    checkSelector i = .error f ↔ 10 < i ∧ f = .unknownRegister i := by
  by_cases h : 10 < i
  · simp [checkSelector_error h, h, eq_comm]
  · obtain ⟨r, hr⟩ := Option.isSome_iff_exists.1 ((Reg.ofIndex_isSome i).2 (by omega))
    simp [checkSelector_ok hr, h]

theorem State.regNarrow_ok (s : State) {i : NarrowSel} {r : Reg} (h : Reg.ofIndex i.toNat = some r) :
    s.regNarrow i = .ok (s.read r) := by
  simp [State.regNarrow, checkSelector_ok h]

theorem State.regNarrow_error (s : State) {i : NarrowSel} (h : 10 < i.toNat) :
    s.regNarrow i = .error (.unknownRegister i.toNat) := by
  simp [State.regNarrow, checkSelector_error h]

theorem State.regFull_ok (s : State) {i : FullSel} {r : Reg} (h : Reg.ofIndex i.toNat = some r) :
    s.regFull i = .ok (s.read r) := by
  simp [State.regFull, checkSelector_ok h]

theorem State.regFull_error (s : State) {i : FullSel} (h : 10 < i.toNat) :
    s.regFull i = .error (.unknownRegister i.toNat) := by
  simp [State.regFull, checkSelector_error h]

theorem checkFull_ok {i : FullSel} {r : Reg} (h : Reg.ofIndex i.toNat = some r) : checkFull i = .ok r :=
  checkSelector_ok h

theorem checkFull_error {i : FullSel} (h : 10 < i.toNat) : checkFull i = .error (.unknownRegister i.toNat) :=
  checkSelector_error h

/-! ### Addresses and zones -/

/-- An address field is a number below 2^32, in figures, since omega does not unfold `addrBits` (30_encoding R87). -/
theorem addrField_lt (a : AddrField) : a.toNat < 4294967296 := a.isLt

/-- Zero-extension keeps the number (30_encoding R87). -/
@[simp] theorem toNat_address (a : AddrField) : (address a).toNat = a.toNat :=
  BitVec.toNat_setWidth_of_le (by decide)

/-- The variable zone in numbers (20_memory R52). -/
theorem checkVariableZone_ok {a : Word} (h : 40001 ≤ a.toNat) (h' : a.toNat ≤ 50000) :
    checkVariableZone a = .ok () :=
  if_neg (by simp only [varMemBottom, varMemTop]; omega)

theorem checkVariableZone_error {a : Word} (h : a.toNat < 40001 ∨ 50000 < a.toNat) :
    checkVariableZone a = .error (.outOfBounds a) :=
  if_pos h

theorem checkVariableZone_eq_ok {a : Word} :
    checkVariableZone a = .ok () ↔ 40001 ≤ a.toNat ∧ a.toNat ≤ 50000 := by
  unfold checkVariableZone varMemBottom varMemTop
  split <;> simp <;> omega

theorem checkVariableZone_eq_error {a : Word} {f : FaultRecord} :
    checkVariableZone a = .error f ↔ (a.toNat < 40001 ∨ 50000 < a.toNat) ∧ f = .outOfBounds a := by
  unfold checkVariableZone varMemBottom varMemTop
  split <;> simp [*, eq_comm]

/-- `n` words from the base end at or below 50000 (41_system_io R145, R147). -/
theorem checkFits_ok {b : Word} {n : Nat} (h : n ≤ 50001 - b.toNat) : checkFits b n = .ok () :=
  if_neg (by simp only [varMemTop]; omega)

theorem checkFits_error {b : Word} {n : Nat} (h : 50001 - b.toNat < n) :
    checkFits b n = .error (.outOfBounds 50001) :=
  if_pos h

theorem checkFits_eq_ok {b : Word} {n : Nat} : checkFits b n = .ok () ↔ n ≤ 50001 - b.toNat := by
  unfold checkFits varMemTop
  split <;> simp <;> omega

theorem checkFits_eq_error {b : Word} {n : Nat} {f : FaultRecord} :
    checkFits b n = .error f ↔ 50001 - b.toNat < n ∧ f = .outOfBounds 50001 := by
  by_cases h : 50001 - b.toNat < n
  · simp [checkFits_error h, h, eq_comm]
  · simp [checkFits_ok (Nat.le_of_not_lt h), h]

/-- PUSH needs `30001 <= sp <= 40000` (43_stack R180). -/
theorem checkPush_eq_ok {sp : Word} : checkPush sp = .ok () ↔ 30001 ≤ sp.toNat ∧ sp.toNat ≤ 40000 := by
  unfold checkPush stackMemBottom stackMemTop
  split
  · simp; omega
  · split <;> simp <;> omega

theorem checkPush_eq_error {sp : Word} {f : FaultRecord} :
    checkPush sp = .error f ↔
      (sp.toNat ≤ 30000 ∧ f = .stackFull sp) ∨ (40000 < sp.toNat ∧ f = .badStackPointer sp) := by
  unfold checkPush stackMemBottom stackMemTop
  split
  · have : ¬ 40000 < sp.toNat := by omega
    simp [*, eq_comm]
  · split <;> simp [*, eq_comm]

/-- POP needs `30000 <= sp <= 39999` (43_stack R180). -/
theorem checkPop_eq_ok {sp : Word} : checkPop sp = .ok () ↔ 30000 ≤ sp.toNat ∧ sp.toNat ≤ 39999 := by
  unfold checkPop stackMemBottom stackMemTop
  split
  · simp; omega
  · split <;> simp <;> omega

theorem checkPop_eq_error {sp : Word} {f : FaultRecord} :
    checkPop sp = .error f ↔
      (40000 ≤ sp.toNat ∧ f = .stackEmpty sp) ∨ (sp.toNat ≤ 29999 ∧ f = .badStackPointer sp) := by
  unfold checkPop stackMemBottom stackMemTop
  split
  · have : ¬ sp.toNat ≤ 29999 := by omega
    simp [*, eq_comm]
  · split
    · have : sp.toNat ≤ 29999 := by omega
      simp [*, eq_comm]
    · simp; omega

/-- The increment of an address that stays in memory is exact. -/
theorem toNat_succ {a : Word} (h : a.toNat ≤ 50000) : (a + 1).toNat = a.toNat + 1 := by
  rw [BitVec.toNat_add]
  simp
  omega

/-! ### Checked memory primitives (20_memory R54) -/

theorem State.memRead_ok (s : State) {a : Word} (h : a.toNat ≤ 50000) :
    s.memRead a = .ok (Memory.read s.mem a.toNat) :=
  if_neg (by simp only [memTop, memWords]; omega)

theorem State.memRead_error (s : State) {a : Word} (h : 50000 < a.toNat) : s.memRead a = .error (.outOfBounds a) :=
  if_pos h

theorem State.memWrite_ok (s : State) {a : Word} (v : Word) (h : a.toNat ≤ 50000) :
    s.memWrite a v = .ok { s with mem := Memory.write s.mem a.toNat v } :=
  if_neg (by simp only [memTop, memWords]; omega)

theorem State.memWrite_error (s : State) {a : Word} (v : Word) (h : 50000 < a.toNat) :
    s.memWrite a v = .error (.outOfBounds a) :=
  if_pos h

/-- A string that fits below 50001 is written whole: the primitive's own check never fires (R54). -/
theorem State.memWriteAll_ok (s : State) {a : Word} (cs : List Word) (h : a.toNat + cs.length ≤ 50001) :
    s.memWriteAll a cs = .ok { s with mem := Memory.writeAll s.mem a.toNat cs } := by
  induction cs generalizing s a with
  | nil => rfl
  | cons c cs ih =>
    simp only [List.length_cons] at h
    rw [State.memWriteAll, State.memWrite_ok s c (by omega), Except.ok_bind',
      ih _ (by rw [toNat_succ (by omega)]; omega), toNat_succ (by omega)]
    rfl

/-- A string that lies below 50001 is read whole. -/
theorem State.memReadAll_ok (s : State) {a : Word} {n : Nat} (h : a.toNat + n ≤ 50001) :
    s.memReadAll a n = .ok (Memory.readAll s.mem a.toNat n) := by
  induction n generalizing a with
  | zero => rfl
  | succ n ih =>
    rw [State.memReadAll, State.memRead_ok s (by omega), Except.ok_bind',
      ih (by rw [toNat_succ (by omega)]; omega), toNat_succ (by omega)]
    rfl

/-! ### Fetch, decode, step (40_dispatch R110 to R114) -/

theorem State.fetch_ok {s : State} (h : (s.read .ip).toNat ≤ 50000) :
    s.fetch = .ok (Memory.read s.mem (s.read .ip).toNat) :=
  if_neg (by simp only [memTop, memWords]; omega)

theorem State.fetch_error {s : State} (h : 50000 < (s.read .ip).toNat) :
    s.fetch = .error (.fetchOutOfBounds (s.read .ip)) :=
  if_pos h

theorem State.nextInstr_ok {s : State} {i : Instr} (h : (s.read .ip).toNat ≤ 50000)
    (hd : decode (Memory.read s.mem (s.read .ip).toNat) = .ok i) : s.nextInstr = .ok i := by
  simp [State.nextInstr, State.fetch_ok h, hd]

theorem State.nextInstr_invalid {s : State} {op : BitVec 8} (h : (s.read .ip).toNat ≤ 50000)
    (hd : decode (Memory.read s.mem (s.read .ip).toNat) = .error (.invalidOpcode op)) :
    s.nextInstr = .error (.invalidOpcode op) := by
  simp [State.nextInstr, State.fetch_ok h, hd]

theorem State.nextInstr_fetchError {s : State} (h : 50000 < (s.read .ip).toNat) :
    s.nextInstr = .error (.fetchOutOfBounds (s.read .ip)) := by
  simp [State.nextInstr, State.fetch_error h]

/-- Fetch and decode depend on `ip` and memory only. -/
theorem State.nextInstr_congr {s t : State} (hip : t.read .ip = s.read .ip) (hm : t.mem = s.mem) :
    t.nextInstr = s.nextInstr := by
  simp [State.nextInstr, State.fetch, hip, hm]

theorem step_running {s : State} (hd : s.discarded = false) (hr : s.runState = some .running) :
    step s = match s.nextInstr with
      | .ok i => exec i s
      | .error f => .next (s.raise f) := by
  unfold step
  exact (if_neg (by simp [hd])).trans (if_pos hr)

theorem step_idle {s : State} (hd : s.discarded = false) (hr : s.runState ≠ some .running) : step s = .next s := by
  simp [step, hd, hr]

@[simp] theorem run_zero (s : State) : Host.Core.run core 0 s = .next s := rfl

/-- Running on after a step that answers a next state. -/
theorem run_succ_of_next {s t : State} (k : Nat) (h : step s = .next t) :
    Host.Core.run core (k + 1) s = Host.Core.run core k t :=
  (Host.Core.run.eq_2 core s k).trans (by rw [show core.step s = .next t from h])

/-- A run that answers a next state took a first step that did. -/
theorem run_succ_next {k : Nat} {s u : State} (h : Host.Core.run core (k + 1) s = .next u) :
    ∃ t : State, step s = .next t ∧ Host.Core.run core k t = .next u := by
  have h' := (Host.Core.run.eq_2 core s k).symm.trans h
  cases hs : step s with
  | next t => exact ⟨t, rfl, (run_succ_of_next k hs).symm.trans h⟩
  | fault f => rw [show core.step s = .fault f from hs] at h'; cases h'
  | refused r => rw [show core.step s = .refused r from hs] at h'; cases h'

/-- A state a step leaves as it is stays so for any number of steps. -/
theorem run_of_step_self {s : State} (h : step s = .next s) (k : Nat) : Host.Core.run core k s = .next s := by
  induction k with
  | zero => rfl
  | succ k ih => exact (run_succ_of_next k h).trans ih

/-- Everything a step can do. -/
theorem step_cases {s t : State} (h : step s = .next t) :
    s.discarded = false ∧
      ((s.runState ≠ some .running ∧ t = s) ∨
       (s.runState = some .running ∧ ∃ i, s.nextInstr = .ok i ∧ exec i s = .next t) ∨
       (s.runState = some .running ∧ ∃ f, s.nextInstr = .error f ∧ t = s.raise f)) := by
  unfold step at h
  split at h
  · cases h
  · refine ⟨by simpa using ‹¬ s.discarded = true›, ?_⟩
    split at h
    · refine .inr ?_
      split at h
      · exact .inl ⟨‹_›, _, ‹_›, h⟩
      · exact .inr ⟨‹_›, _, ‹_›, by simpa using h.symm⟩
    · exact .inl ⟨‹_›, by simpa using h.symm⟩

/-- The word placed by `withFetchWord` is the instruction the very next step runs. -/
theorem step_withFetchWord (s : State) {w : Nat} {i : Instr} (hw : w < 2 ^ 64)
    (hd : decode (BitVec.ofNat 64 w) = .ok i) (hm : Memory.wf s.mem = true) :
    step (s.withFetchWord 64 w) = exec i (s.withFetchWord 64 w) := by
  have hip : (s.withFetchWord 64 w).read .ip = if (s.read .ip).toNat ≤ 50000 then s.read .ip else 0 := rfl
  have hle : ((s.withFetchWord 64 w).read .ip).toNat ≤ 50000 := by
    rw [hip]; split <;> simp [*]
  have hmem : Memory.read (s.withFetchWord 64 w).mem ((s.withFetchWord 64 w).read .ip).toNat
      = BitVec.ofNat 64 w := by
    show Memory.read (Memory.write s.mem _ (BitVec.ofNat 64 (w % 2 ^ 64))) _ = _
    rw [Nat.mod_eq_of_lt hw]
    exact Memory.read_write_same _ hm
  rw [step_running (s := s.withFetchWord 64 w) rfl rfl,
    State.nextInstr_ok hle (by rw [hmem]; exact hd)]

end Sys2Proof.Machine
end

