-- ==== Sys2Proof/Laws/Exec.lean ====
section
/-!
SUPPORT. What each handler can do, said once: if it answers a next state, that state is one of these.
-/

namespace Sys2Proof.Machine

@[simp] theorem next_inj {s t : State} : (Host.Outcome.next s : Result) = .next t ↔ s = t := by
  constructor
  · intro h; cases h; rfl
  · rintro rfl; rfl

/-- ADD, SUB, MUL, DIV: the result in `acc`, or an unknown selector, the first operand's before the second's. -/
theorem arith_cases {s t : State} {f : Word → Word → Word} {na nb : NarrowSel}
    (h : s.finish (s.arith f na nb) = .next t) :
    (∃ ra rb, Reg.ofIndex na.toNat = some ra ∧ Reg.ofIndex nb.toNat = some rb ∧
      t = (s.write .acc (f (s.read ra) (s.read rb))).advance) ∨
    (10 < na.toNat ∧ t = s.raise (.unknownRegister na.toNat)) ∨
    (na.toNat ≤ 10 ∧ 10 < nb.toNat ∧ t = s.raise (.unknownRegister nb.toNat)) := by
  unfold State.arith at h
  by_cases ha : 10 < na.toNat
  · rw [State.regNarrow_error s ha] at h
    exact .inr (.inl ⟨ha, (next_inj.1 h).symm⟩)
  · obtain ⟨ra, hra⟩ := Option.isSome_iff_exists.1 ((Reg.ofIndex_isSome na.toNat).2 (by omega))
    rw [State.regNarrow_ok s hra, Except.ok_bind'] at h
    by_cases hb : 10 < nb.toNat
    · rw [State.regNarrow_error s hb] at h
      exact .inr (.inr ⟨by omega, hb, (next_inj.1 h).symm⟩)
    · obtain ⟨rb, hrb⟩ := Option.isSome_iff_exists.1 ((Reg.ofIndex_isSome nb.toNat).2 (by omega))
      rw [State.regNarrow_ok s hrb] at h
      exact .inl ⟨ra, rb, hra, hrb, (next_inj.1 h).symm⟩

/-- CON. -/
theorem execCon_cases {s t : State} {fr : FullSel} (h : execCon fr s = .next t) :
    (∃ r, Reg.ofIndex fr.toNat = some r ∧ t = (s.write .acc (i2f (s.read r))).advance) ∨
    (10 < fr.toNat ∧ t = s.raise (.unknownRegister fr.toNat)) := by
  unfold execCon at h
  by_cases hf : 10 < fr.toNat
  · rw [State.regFull_error s hf] at h
    exact .inr ⟨hf, (next_inj.1 h).symm⟩
  · obtain ⟨r, hr⟩ := Option.isSome_iff_exists.1 ((Reg.ofIndex_isSome fr.toNat).2 (by omega))
    rw [State.regFull_ok s hr] at h
    exact .inl ⟨r, hr, (next_inj.1 h).symm⟩

/-- PUSH. -/
theorem execPush_cases {s t : State} {fr : FullSel} (h : execPush fr s = .next t) :
    (∃ r, Reg.ofIndex fr.toNat = some r ∧ 30001 ≤ (s.read .sp).toNat ∧ (s.read .sp).toNat ≤ 40000 ∧
      t = (State.write { s with mem := Memory.write s.mem (s.read .sp).toNat (s.read r) } .sp
        (s.read .sp - 1)).advance) ∨
    (10 < fr.toNat ∧ t = s.raise (.unknownRegister fr.toNat)) ∨
    (fr.toNat ≤ 10 ∧ (s.read .sp).toNat ≤ 30000 ∧ t = s.raise (.stackFull (s.read .sp))) ∨
    (fr.toNat ≤ 10 ∧ 40000 < (s.read .sp).toNat ∧ t = s.raise (.badStackPointer (s.read .sp))) := by
  unfold execPush at h
  by_cases hf : 10 < fr.toNat
  · rw [State.regFull_error s hf] at h
    exact .inr (.inl ⟨hf, (next_inj.1 h).symm⟩)
  · obtain ⟨r, hr⟩ := Option.isSome_iff_exists.1 ((Reg.ofIndex_isSome fr.toNat).2 (by omega))
    rw [State.regFull_ok s hr, Except.ok_bind'] at h
    cases hc : checkPush (s.read .sp) with
    | ok =>
      obtain ⟨h1, h2⟩ := checkPush_eq_ok.1 hc
      rw [hc, Except.ok_bind', State.memWrite_ok s _ (by omega)] at h
      exact .inl ⟨r, hr, h1, h2, (next_inj.1 h).symm⟩
    | error f =>
      rw [hc] at h
      obtain ⟨h1, rfl⟩ | ⟨h1, rfl⟩ := checkPush_eq_error.1 hc
      · exact .inr (.inr (.inl ⟨by omega, h1, (next_inj.1 h).symm⟩))
      · exact .inr (.inr (.inr ⟨by omega, h1, (next_inj.1 h).symm⟩))

/-- POP. -/
theorem execPop_cases {s t : State} {fr : FullSel} (h : execPop fr s = .next t) :
    (∃ r, Reg.ofIndex fr.toNat = some r ∧ 30000 ≤ (s.read .sp).toNat ∧ (s.read .sp).toNat ≤ 39999 ∧
      t = (s.write .sp (s.read .sp + 1)).moveTo r (Memory.read s.mem ((s.read .sp).toNat + 1))) ∨
    (10 < fr.toNat ∧ t = s.raise (.unknownRegister fr.toNat)) ∨
    (fr.toNat ≤ 10 ∧ 40000 ≤ (s.read .sp).toNat ∧ t = s.raise (.stackEmpty (s.read .sp))) ∨
    (fr.toNat ≤ 10 ∧ (s.read .sp).toNat ≤ 29999 ∧ t = s.raise (.badStackPointer (s.read .sp))) := by
  unfold execPop at h
  by_cases hf : 10 < fr.toNat
  · rw [checkFull_error hf] at h
    exact .inr (.inl ⟨hf, (next_inj.1 h).symm⟩)
  · obtain ⟨r, hr⟩ := Option.isSome_iff_exists.1 ((Reg.ofIndex_isSome fr.toNat).2 (by omega))
    rw [checkFull_ok hr, Except.ok_bind'] at h
    cases hc : checkPop (s.read .sp) with
    | ok =>
      obtain ⟨h1, h2⟩ := checkPop_eq_ok.1 hc
      have hs : (s.read .sp + 1).toNat = (s.read .sp).toNat + 1 := toNat_succ (by omega)
      rw [hc, Except.ok_bind'] at h
      dsimp only at h
      rw [State.read_write_same, State.memRead_ok _ (by rw [hs]; omega), hs] at h
      exact .inl ⟨r, hr, h1, h2, (next_inj.1 h).symm⟩
    | error f =>
      rw [hc] at h
      obtain ⟨h1, rfl⟩ | ⟨h1, rfl⟩ := checkPop_eq_error.1 hc
      · exact .inr (.inr (.inl ⟨by omega, h1, (next_inj.1 h).symm⟩))
      · exact .inr (.inr (.inr ⟨by omega, h1, (next_inj.1 h).symm⟩))

/-- LD. -/
theorem execLd_cases {s t : State} {fr : FullSel} {a : AddrField} (h : execLd fr a s = .next t) :
    (∃ r, Reg.ofIndex fr.toNat = some r ∧ 40001 ≤ a.toNat ∧ a.toNat ≤ 50000 ∧
      t = s.moveTo r (Memory.read s.mem a.toNat)) ∨
    (10 < fr.toNat ∧ t = s.raise (.unknownRegister fr.toNat)) ∨
    (fr.toNat ≤ 10 ∧ (a.toNat < 40001 ∨ 50000 < a.toNat) ∧ t = s.raise (.outOfBounds (address a))) := by
  unfold execLd at h
  by_cases hf : 10 < fr.toNat
  · rw [checkFull_error hf] at h
    exact .inr (.inl ⟨hf, (next_inj.1 h).symm⟩)
  · obtain ⟨r, hr⟩ := Option.isSome_iff_exists.1 ((Reg.ofIndex_isSome fr.toNat).2 (by omega))
    rw [checkFull_ok hr, Except.ok_bind'] at h
    by_cases ha : a.toNat < 40001 ∨ 50000 < a.toNat
    · rw [checkVariableZone_error (by simpa using ha)] at h
      exact .inr (.inr ⟨by omega, ha, (next_inj.1 h).symm⟩)
    · rw [checkVariableZone_ok (by simp; omega) (by simp; omega), Except.ok_bind',
        State.memRead_ok s (by simp; omega), toNat_address] at h
      exact .inl ⟨r, hr, by omega, by omega, (next_inj.1 h).symm⟩

/-- ST. -/
theorem execSt_cases {s t : State} {fr : FullSel} {a : AddrField} (h : execSt fr a s = .next t) :
    (∃ r, Reg.ofIndex fr.toNat = some r ∧ 40001 ≤ a.toNat ∧ a.toNat ≤ 50000 ∧
      t = State.advance { s with mem := Memory.write s.mem a.toNat (s.read r) }) ∨
    (10 < fr.toNat ∧ t = s.raise (.unknownRegister fr.toNat)) ∨
    (fr.toNat ≤ 10 ∧ (a.toNat < 40001 ∨ 50000 < a.toNat) ∧ t = s.raise (.outOfBounds (address a))) := by
  unfold execSt at h
  by_cases hf : 10 < fr.toNat
  · rw [State.regFull_error s hf] at h
    exact .inr (.inl ⟨hf, (next_inj.1 h).symm⟩)
  · obtain ⟨r, hr⟩ := Option.isSome_iff_exists.1 ((Reg.ofIndex_isSome fr.toNat).2 (by omega))
    rw [State.regFull_ok s hr, Except.ok_bind'] at h
    by_cases ha : a.toNat < 40001 ∨ 50000 < a.toNat
    · rw [checkVariableZone_error (by simpa using ha)] at h
      exact .inr (.inr ⟨by omega, ha, (next_inj.1 h).symm⟩)
    · rw [checkVariableZone_ok (by simp; omega) (by simp; omega), Except.ok_bind',
        State.memWrite_ok s _ (by simp; omega), toNat_address] at h
      exact .inl ⟨r, hr, by omega, by omega, (next_inj.1 h).symm⟩

/-- IN_N: the wait, or one of the three answers. -/
theorem execInN_cases {s t : State} (h : execInN s = .next t) :
    (s.numAnswers = [] ∧ t = s.await .num) ∨
    (∃ v rest, s.numAnswers = .value v :: rest ∧
      t = ((s.consumeNum (.value v) rest).write .acc v).advance) ∨
    (∃ rest, s.numAnswers = .malformed :: rest ∧ t = (s.consumeNum .malformed rest).raise .malformed) ∨
    (∃ rest, s.numAnswers = .endOfInput :: rest ∧ t = (s.consumeNum .endOfInput rest).raise .endOfInput) := by
  unfold execInN at h
  split at h
  · exact .inl ⟨‹_›, (next_inj.1 h).symm⟩
  · exact .inr (.inl ⟨_, _, ‹_›, (next_inj.1 h).symm⟩)
  · exact .inr (.inr (.inl ⟨_, ‹_›, (next_inj.1 h).symm⟩))
  · exact .inr (.inr (.inr ⟨_, ‹_›, (next_inj.1 h).symm⟩))

/-- IN_S: the base out of its zone, the wait, a refused input, a string that does not fit, or a string written. -/
theorem execInS_cases {s t : State} {a : AddrField} (h : execInS a s = .next t) :
    ((a.toNat < 40001 ∨ 50000 < a.toNat) ∧ t = s.raise (.outOfBounds (address a))) ∨
    (40001 ≤ a.toNat ∧ a.toNat ≤ 50000 ∧
      ((s.strAnswers = [] ∧ t = s.await .str) ∨
       (∃ rest, s.strAnswers = .malformed :: rest ∧ t = (s.consumeStr .malformed rest).raise .malformed) ∨
       (∃ rest, s.strAnswers = .endOfInput :: rest ∧ t = (s.consumeStr .endOfInput rest).raise .endOfInput) ∨
       (∃ cs rest, s.strAnswers = .chars cs :: rest ∧ 50001 - a.toNat < cs.length ∧
         t = (s.consumeStr (.chars cs) rest).raise (.outOfBounds 50001)) ∨
       (∃ cs rest, s.strAnswers = .chars cs :: rest ∧ cs.length ≤ 50001 - a.toNat ∧
         t = (State.write { s.consumeStr (.chars cs) rest with mem := Memory.writeAll s.mem a.toNat cs } .acc
           (BitVec.ofNat 64 cs.length)).advance))) := by
  unfold execInS at h
  by_cases ha : a.toNat < 40001 ∨ 50000 < a.toNat
  · rw [checkVariableZone_error (by simpa using ha)] at h
    exact .inl ⟨ha, (next_inj.1 h).symm⟩
  · refine .inr ⟨by omega, by omega, ?_⟩
    rw [checkVariableZone_ok (by simp; omega) (by simp; omega)] at h
    simp only [State.readString] at h
    split at h
    · exact .inl ⟨‹_›, (next_inj.1 h).symm⟩
    · exact .inr (.inl ⟨_, ‹_›, (next_inj.1 h).symm⟩)
    · exact .inr (.inr (.inl ⟨_, ‹_›, (next_inj.1 h).symm⟩))
    · rename_i cs rest hs
      by_cases hl : 50001 - a.toNat < cs.length
      · rw [checkFits_error (by simpa using hl)] at h
        exact .inr (.inr (.inr (.inl ⟨cs, rest, hs, hl, (next_inj.1 h).symm⟩)))
      · rw [checkFits_ok (by simp; omega), Except.ok_bind', State.memWriteAll_ok _ _ (by simp; omega),
          toNat_address] at h
        exact .inr (.inr (.inr (.inr ⟨cs, rest, hs, by omega, (next_inj.1 h).symm⟩)))

/-- OUT_S. -/
theorem execOutS_cases {s t : State} {a : AddrField} (h : execOutS a s = .next t) :
    ((a.toNat < 40001 ∨ 50000 < a.toNat) ∧ t = s.raise (.outOfBounds (address a))) ∨
    (40001 ≤ a.toNat ∧ a.toNat ≤ 50000 ∧ 50001 - a.toNat < (s.read .acc).toNat ∧
      t = s.raise (.outOfBounds 50001)) ∨
    (40001 ≤ a.toNat ∧ a.toNat ≤ 50000 ∧ (s.read .acc).toNat ≤ 50001 - a.toNat ∧
      t = (s.emit (.str (Memory.readAll s.mem a.toNat (s.read .acc).toNat))).advance) := by
  unfold execOutS at h
  by_cases ha : a.toNat < 40001 ∨ 50000 < a.toNat
  · rw [checkVariableZone_error (by simpa using ha)] at h
    exact .inl ⟨ha, (next_inj.1 h).symm⟩
  · rw [checkVariableZone_ok (by simp; omega) (by simp; omega), Except.ok_bind'] at h
    by_cases hl : 50001 - a.toNat < (s.read .acc).toNat
    · rw [checkFits_error (by simpa using hl)] at h
      exact .inr (.inl ⟨by omega, by omega, hl, (next_inj.1 h).symm⟩)
    · rw [checkFits_ok (by simp; omega), Except.ok_bind', State.memReadAll_ok _ (by simp; omega),
        toNat_address] at h
      exact .inr (.inr ⟨by omega, by omega, by omega, (next_inj.1 h).symm⟩)

/-- JMP and the conditional jumps change `ip` alone. -/
theorem State.jumpIf_cases (s : State) (c : Word → Bool) (a : AddrField) :
    (c (s.read .acc) = true ∧ s.jumpIf c a = s.write .ip (address a)) ∨
    (c (s.read .acc) = false ∧ s.jumpIf c a = s.advance) := by
  unfold State.jumpIf
  cases h : c (s.read .acc) with
  | true => exact .inl ⟨rfl, rfl⟩
  | false => exact .inr ⟨rfl, rfl⟩

end Sys2Proof.Machine
end

