-- ==== Sys2Proof/Laws/Ieee.lean ====
section
/-!
SUPPORT. What the binary64 operations can do, said once: the fields of a signed magnitude, the number a pattern is read
as, and the rounding of a fraction to the nearest encoded magnitude.
-/

namespace Sys2Proof.Machine

/-- The encoded magnitude of a pattern: its bits 62:0. -/
def magnitudeBits (v : Word) : Nat := v.toNat % 2 ^ 63

/-- How many units of 2^-1074 an encoded magnitude below infinity stands for. -/
@[irreducible] def units (n : Nat) : Nat :=
  if n / 2 ^ 52 = 0 then n % 2 ^ 52 else (2 ^ 52 + n % 2 ^ 52) * 2 ^ (n / 2 ^ 52 - 1)

theorem unitsPerOne_eq : unitsPerOne = 2 ^ 1074 := by unfold unitsPerOne; rfl

theorem infinityBits_eq : infinityBits = 2047 * 2 ^ 52 := rfl

/-! ### Patterns as a sign and an encoded magnitude -/

theorem toNat_withSign {neg : Bool} {n : Nat} (h : n < 2 ^ 63) :
    (withSign neg n).toNat = if neg then 2 ^ 63 + n else n := by
  unfold withSign
  cases neg
  · simp; omega
  · simp only [if_true, BitVec.toNat_ofNat]; omega

@[simp] theorem magnitudeBits_withSign {neg : Bool} {n : Nat} (h : n < 2 ^ 63) :
    magnitudeBits (withSign neg n) = n := by
  unfold magnitudeBits
  rw [toNat_withSign h]
  cases neg <;> simp only [Bool.false_eq_true, if_true, if_false] <;> omega

theorem msb_withSign {neg : Bool} {n : Nat} (h : n < 2 ^ 63) : (withSign neg n).msb = neg := by
  rw [BitVec.msb_eq_decide, toNat_withSign h]
  cases neg
  · simpa using h
  · simp

theorem magnitudeBits_lt (v : Word) : magnitudeBits v < 2 ^ 63 := Nat.mod_lt _ (by norm_num)

/-- A pattern is its sign and its encoded magnitude. -/
theorem withSign_magnitudeBits (v : Word) : withSign v.msb (magnitudeBits v) = v := by
  apply BitVec.eq_of_toNat_eq
  rw [toNat_withSign (magnitudeBits_lt v), BitVec.msb_eq_decide]
  unfold magnitudeBits
  have := v.isLt
  simp only [decide_eq_true_eq]
  split <;> omega

/-- The pattern of a sign and a magnitude is that of no other. -/
theorem withSign_inj {s t : Bool} {m n : Nat} (hm : m < 2 ^ 63) (hn : n < 2 ^ 63) :
    withSign s m = withSign t n ↔ s = t ∧ m = n := by
  constructor
  · intro h
    exact ⟨by simpa [msb_withSign hm, msb_withSign hn] using congrArg BitVec.msb h,
      by simpa [magnitudeBits_withSign hm, magnitudeBits_withSign hn] using congrArg magnitudeBits h⟩
  · rintro ⟨rfl, rfl⟩; rfl

theorem exponentField_eq (v : Word) : exponentField v = magnitudeBits v / 2 ^ 52 := by
  unfold exponentField magnitudeBits
  rw [BitVec.extractLsb'_toNat, Nat.shiftRight_eq_div_pow]
  omega

theorem fractionField_eq (v : Word) : fractionField v = magnitudeBits v % 2 ^ 52 := by
  unfold fractionField magnitudeBits
  rw [BitVec.extractLsb'_toNat, Nat.shiftRight_eq_div_pow]
  omega

/-! ### The number a pattern is read as -/

theorem f64_finite {v : Word} (h : magnitudeBits v < infinityBits) :
    f64 v = .finite v.msb (units (magnitudeBits v)) := by
  unfold f64 units
  rw [exponentField_eq, fractionField_eq]
  have h' : magnitudeBits v / 2 ^ 52 ≠ 2047 := by rw [infinityBits_eq] at h; omega
  rw [if_neg h']
  split <;> rfl

theorem f64_infinite {v : Word} (h : magnitudeBits v = infinityBits) : f64 v = .infinite v.msb := by
  unfold f64
  rw [exponentField_eq, fractionField_eq, h]
  rfl

theorem f64_nan {v : Word} (h : infinityBits < magnitudeBits v) : f64 v = .nan := by
  unfold f64
  have := magnitudeBits_lt v
  rw [infinityBits_eq] at h
  rw [exponentField_eq, fractionField_eq, if_pos (by omega), if_neg (by omega)]

theorem isNaN_iff {v : Word} : isNaN v = true ↔ infinityBits < magnitudeBits v := by
  unfold isNaN
  have := magnitudeBits_lt v
  rw [exponentField_eq, fractionField_eq, infinityBits_eq]
  simp only [Bool.and_eq_true, decide_eq_true_eq]
  omega

theorem magnitudeBits_infinity (s : Bool) : magnitudeBits (infinity s) = infinityBits :=
  magnitudeBits_withSign (by norm_num [infinityBits])

theorem msb_infinity (s : Bool) : (infinity s).msb = s := msb_withSign (by norm_num [infinityBits])

@[simp] theorem f64_infinity (s : Bool) : f64 (infinity s) = .infinite s := by
  rw [f64_infinite (magnitudeBits_infinity s), msb_infinity]

/-- A signed magnitude below infinity is read as its units. -/
theorem f64_withSign {s : Bool} {n : Nat} (h : n < infinityBits) : f64 (withSign s n) = .finite s (units n) := by
  have h' : n < 2 ^ 63 := by rw [infinityBits_eq] at h; omega
  rw [f64_finite (by rwa [magnitudeBits_withSign h']), msb_withSign h', magnitudeBits_withSign h']

/-- Only an infinity is read as one. -/
theorem f64_eq_infinite {v : Word} {s : Bool} : f64 v = .infinite s ↔ v = infinity s := by
  constructor
  · intro h
    rcases Nat.lt_trichotomy (magnitudeBits v) infinityBits with h' | h' | h'
    · rw [f64_finite h'] at h; cases h
    · rw [f64_infinite h'] at h
      cases h
      rw [infinity, ← h', withSign_magnitudeBits]
    · rw [f64_nan h'] at h; cases h
  · rintro rfl; exact f64_infinity s

theorem f64_eq_nan {v : Word} : f64 v = .nan ↔ isNaN v = true := by
  rw [isNaN_iff]
  rcases Nat.lt_trichotomy (magnitudeBits v) infinityBits with h' | h' | h'
  · simp [f64_finite h']; omega
  · simp [f64_infinite h', h']
  · simp [f64_nan h', h']

/-- What is read as a finite number is a signed magnitude below infinity. -/
theorem f64_eq_finite {v : Word} {s : Bool} {m : Nat} :
    f64 v = .finite s m ↔ magnitudeBits v < infinityBits ∧ v.msb = s ∧ units (magnitudeBits v) = m := by
  rcases Nat.lt_trichotomy (magnitudeBits v) infinityBits with h' | h' | h'
  · simp [f64_finite h', h']
  · simp [f64_infinite h', h']
  · simp [f64_nan h']; omega

/-- An open NaN result is a NaN (42_arithmetic R160 (d)). -/
theorem isNaN_nanPattern (n : NanPattern) : isNaN (NanPattern.toWord n) = true := by
  have h := n.fractionLessOne.isLt
  rw [isNaN_iff, NanPattern.toWord, magnitudeBits_withSign (by rw [infinityBits_eq]; omega)]
  omega

/-! ### Units of encoded magnitudes -/

/-- The units of a magnitude written as a shift and a significand. -/
theorem units_shift {shift k : Nat} (hk : k ≤ 2 ^ 53) (h : shift = 0 ∨ 2 ^ 52 ≤ k) :
    units (shift * 2 ^ 52 + k) = k * 2 ^ shift := by
  unfold units
  rcases Nat.lt_or_ge k (2 ^ 52) with h1 | h1
  · have h0 : shift = 0 := by omega
    subst h0
    rw [if_pos (by omega)]
    omega
  · rcases Nat.lt_or_ge k (2 ^ 53) with h2 | h2
    · have e : (shift * 2 ^ 52 + k) / 2 ^ 52 = shift + 1 := by omega
      have f : (shift * 2 ^ 52 + k) % 2 ^ 52 = k - 2 ^ 52 := by omega
      rw [e, f, if_neg (by omega), Nat.add_sub_cancel, show 2 ^ 52 + (k - 2 ^ 52) = k by omega]
    · have hk' : k = 2 ^ 53 := by omega
      subst hk'
      have e : (shift * 2 ^ 52 + 2 ^ 53) / 2 ^ 52 = shift + 2 := by omega
      have f : (shift * 2 ^ 52 + 2 ^ 53) % 2 ^ 52 = 0 := by omega
      rw [e, f, if_neg (by omega), show shift + 2 - 1 = shift + 1 by omega, pow_succ]
      ring

/-- Every magnitude has such a shift and significand. -/
theorem exists_shift (n : Nat) :
    ∃ shift k, n = shift * 2 ^ 52 + k ∧ k < 2 ^ 53 ∧ (shift = 0 ∨ 2 ^ 52 ≤ k) := by
  rcases Nat.lt_or_ge n (2 ^ 53) with h | h
  · exact ⟨0, n, by omega, h, .inl rfl⟩
  · exact ⟨n / 2 ^ 52 - 1, n % 2 ^ 52 + 2 ^ 52, by omega, by omega, .inr (by omega)⟩

/-- A greater magnitude stands for more units. -/
theorem units_strictMono : StrictMono units := by
  refine strictMono_nat_of_lt_succ fun n => ?_
  obtain ⟨shift, k, rfl, hk, h⟩ := exists_shift n
  rw [units_shift (by omega) h, Nat.add_assoc, units_shift (by omega) (by omega)]
  exact Nat.mul_lt_mul_of_pos_right (by omega) (by positivity)

@[simp] theorem units_zero : units 0 = 0 := by
  unfold units
  simp only [Nat.zero_div, Nat.zero_mod, if_true]

theorem units_eq_zero {n : Nat} : units n = 0 ↔ n = 0 :=
  ⟨fun h => units_strictMono.injective (h.trans units_zero.symm), by rintro rfl; exact units_zero⟩

/-! ### Rounding (42_arithmetic R160 (a)) -/

/-- The nearest whole number is one of the two around the fraction. -/
theorem nearestEven_cases (p q : Nat) : nearestEven p q = p / q ∨ nearestEven p q = p / q + 1 := by
  unfold nearestEven
  split
  · exact .inl rfl
  · split
    · exact .inr rfl
    · rcases Nat.mod_two_eq_zero_or_one (p / q) with h | h <;> simp [h]

/-- How far the units of a magnitude lie from the fraction `p / q`, times `q`. -/
def gap (p q n : Nat) : Nat := (units n * q - p) + (p - units n * q)

/-- A nonzero number shifted down by its excess over 53 bits has 53 bits. -/
theorem significand_bounds (p q : Nat) :
    p / (q * 2 ^ ((p / q).log2 - 52)) < 2 ^ 53 ∧
      ((p / q).log2 - 52 = 0 ∨ 2 ^ 52 ≤ p / (q * 2 ^ ((p / q).log2 - 52))) := by
  rw [← Nat.div_div_eq_div_mul]
  generalize p / q = l
  rcases Nat.eq_zero_or_pos l with rfl | hl
  · simp
  have h1 := Nat.log2_self_le (by omega : l ≠ 0)
  have h2 := Nat.lt_log2_self (n := l)
  refine ⟨?_, ?_⟩
  · rw [Nat.div_lt_iff_lt_mul (by positivity), ← pow_add]
    exact lt_of_lt_of_le h2 (Nat.pow_le_pow_right (by norm_num) (by omega))
  · rcases Nat.lt_or_ge l.log2 52 with h | h
    · exact .inl (by omega)
    · right
      rw [Nat.le_div_iff_mul_le (by positivity), ← pow_add, Nat.add_sub_cancel' h]
      exact h1

/-- Before the cap at infinity, the magnitude chosen is a nearest one of all, and even where another is as near. -/
theorem nearest_uncapped (p q : Nat) (hq : 0 < q) (n : Nat) :
    let shift := (p / q).log2 - 52
    let r := shift * 2 ^ 52 + nearestEven p (q * 2 ^ shift)
    gap p q r ≤ gap p q n ∧ (gap p q r = gap p q n → n ≠ r → r % 2 = 0) := by
  intro shift r
  obtain ⟨hk, hs⟩ := significand_bounds p q
  change p / (q * 2 ^ shift) < 2 ^ 53 at hk
  change shift = 0 ∨ 2 ^ 52 ≤ p / (q * 2 ^ shift) at hs
  have hQ : 0 < q * 2 ^ shift := by positivity
  have hlo := units_shift (by omega : p / (q * 2 ^ shift) ≤ 2 ^ 53) hs
  have hhi := units_shift (by omega : p / (q * 2 ^ shift) + 1 ≤ 2 ^ 53) (by omega : shift = 0 ∨ _)
  have hdiv := Nat.div_add_mod p (q * 2 ^ shift)
  have hmod := Nat.mod_lt p hQ
  have hr : r = shift * 2 ^ 52 + nearestEven p (q * 2 ^ shift) := rfl
  unfold nearestEven at hr
  generalize hQ' : q * 2 ^ shift = Q at *
  generalize p / Q = k at *
  generalize p % Q = m at *
  have hA : units (shift * 2 ^ 52 + k) * q = Q * k := by rw [hlo, ← hQ']; ring
  have hB : units (shift * 2 ^ 52 + (k + 1)) * q = Q * k + Q := by rw [hhi, ← hQ']; ring
  have below : ∀ x, x < shift * 2 ^ 52 + k → units x * q < Q * k := fun x hx =>
    hA ▸ Nat.mul_lt_mul_of_pos_right (units_strictMono hx) hq
  have above : ∀ x, shift * 2 ^ 52 + (k + 1) < x → Q * k + Q < units x * q := fun x hx =>
    hB ▸ Nat.mul_lt_mul_of_pos_right (units_strictMono hx) hq
  have hn : n < shift * 2 ^ 52 + k ∧ units n * q < Q * k ∨ n = shift * 2 ^ 52 + k ∧ units n * q = Q * k ∨
      n = shift * 2 ^ 52 + (k + 1) ∧ units n * q = Q * k + Q ∨
      shift * 2 ^ 52 + (k + 1) < n ∧ Q * k + Q < units n * q := by
    rcases Nat.lt_trichotomy n (shift * 2 ^ 52 + k) with h | h | h
    · exact .inl ⟨h, below n h⟩
    · exact .inr (.inl ⟨h, h ▸ hA⟩)
    · rcases Nat.eq_or_lt_of_le (show shift * 2 ^ 52 + (k + 1) ≤ n by omega) with h | h
      · exact .inr (.inr (.inl ⟨h.symm, h ▸ hB⟩))
      · exact .inr (.inr (.inr ⟨h, above n h⟩))
  have hcase : r = shift * 2 ^ 52 + k ∧ units r * q = Q * k ∧ (2 * m < Q ∨ 2 * m = Q ∧ r % 2 = 0) ∨
      r = shift * 2 ^ 52 + (k + 1) ∧ units r * q = Q * k + Q ∧ (Q < 2 * m ∨ 2 * m = Q ∧ r % 2 = 0) := by
    split at hr
    · exact .inl ⟨hr, hr ▸ hA, .inl ‹_›⟩
    · split at hr
      · exact .inr ⟨hr, hr ▸ hB, .inl ‹_›⟩
      · rcases Nat.mod_two_eq_zero_or_one k with h | h
        · rw [h, Nat.add_zero] at hr
          exact .inl ⟨hr, hr ▸ hA, .inr ⟨by omega, by omega⟩⟩
        · rw [h] at hr
          exact .inr ⟨hr, hr ▸ hB, .inr ⟨by omega, by omega⟩⟩
  clear_value r
  unfold gap
  generalize units n * q = x at *
  generalize units r * q = y at *
  generalize Q * k = A at *
  clear hr hA hB below above hlo hhi hQ' hs hk
  omega

/-- Units of the infinite magnitude and of the greatest finite one, by the half spacing between them. -/
theorem units_top : units infinityBits = 2 ^ 54 * 2 ^ 2044 ∧ units (infinityBits - 1) = (2 ^ 54 - 2) * 2 ^ 2044 := by
  have e : infinityBits = 2045 * 2 ^ 52 + 2 ^ 53 := by norm_num [infinityBits]
  have f : infinityBits - 1 = 2045 * 2 ^ 52 + (2 ^ 53 - 1) := by norm_num [infinityBits]
  rw [f, e, units_shift (le_refl _) (.inr (by norm_num)), units_shift (by norm_num) (.inr (by norm_num)),
    show 2045 = 1 + 2044 from rfl, pow_add]
  generalize 2 ^ 2044 = u
  constructor <;> ring

/-- From half a spacing above the greatest finite number on, the result is infinity (42_arithmetic R160 (c)). -/
theorem roundMag_overflow {p q : Nat} (hq : 0 < q) (h : (2 ^ 54 - 1) * 2 ^ 2044 * q ≤ p) :
    roundMag p q = infinityBits := by
  obtain ⟨h1, h2⟩ := units_top
  unfold roundMag
  refine Nat.min_eq_right (Nat.le_of_not_lt fun hlt => ?_)
  obtain ⟨h3, h4⟩ := nearest_uncapped p q hq infinityBits
  generalize hr : ((p / q).log2 - 52) * 2 ^ 52 + nearestEven p (q * 2 ^ ((p / q).log2 - 52)) = r at *
  have h5 : units r * q ≤ units (infinityBits - 1) * q :=
    Nat.mul_le_mul_right q (units_strictMono.monotone (by omega))
  have h6 : r ≠ infinityBits - 1 → units r * q < units (infinityBits - 1) * q := fun hne =>
    Nat.mul_lt_mul_of_pos_right (units_strictMono (by omega)) hq
  have h7 : infinityBits % 2 = 0 := rfl
  unfold gap at h3 h4
  rw [h1] at h3 h4
  rw [h2, Nat.mul_assoc] at h5 h6
  rw [Nat.mul_assoc] at h3 h4 h
  have hV : 0 < 2 ^ 2044 * q := by positivity
  generalize 2 ^ 2044 * q = V at *
  generalize units r * q = y at *
  omega

/-- Below that, the result is finite and a nearest one of all magnitudes, and even where another is as near
(42_arithmetic R160 (a)). -/
theorem roundMag_nearest {p q : Nat} (hq : 0 < q) (h : p < (2 ^ 54 - 1) * 2 ^ 2044 * q) :
    roundMag p q < infinityBits ∧
      ∀ n, gap p q (roundMag p q) ≤ gap p q n ∧
        (gap p q (roundMag p q) = gap p q n → n ≠ roundMag p q → roundMag p q % 2 = 0) := by
  obtain ⟨h1, h2⟩ := units_top
  have hn := nearest_uncapped p q hq
  have hr : roundMag p q = min (((p / q).log2 - 52) * 2 ^ 52 + nearestEven p (q * 2 ^ ((p / q).log2 - 52))) infinityBits :=
    rfl
  simp only at hn
  generalize ((p / q).log2 - 52) * 2 ^ 52 + nearestEven p (q * 2 ^ ((p / q).log2 - 52)) = r at *
  have hlt : r < infinityBits := by
    by_contra hge
    obtain ⟨h3, -⟩ := hn (infinityBits - 1)
    have h5 : units infinityBits * q ≤ units r * q :=
      Nat.mul_le_mul_right q (units_strictMono.monotone (by omega))
    unfold gap at h3
    rw [h2] at h3
    rw [h1] at h5
    rw [Nat.mul_assoc] at h3 h5 h
    have hV : 0 < 2 ^ 2044 * q := by positivity
    generalize 2 ^ 2044 * q = V at *
    generalize units r * q = y at *
    omega
  rw [hr, Nat.min_eq_left hlt.le]
  exact ⟨hlt, hn⟩

/-- The result is never above infinity. -/
theorem roundMag_le (p q : Nat) : roundMag p q ≤ infinityBits := Nat.min_le_right _ _

/-- A fraction of zero rounds to zero. -/
@[simp] theorem roundMag_zero (q : Nat) : roundMag 0 q = 0 := by
  simp [roundMag, nearestEven]

/-- Up to half a unit of 2^-1074 the nearest number is zero, the tie at the half going to the even zero (R160 (a)). -/
theorem roundMag_eq_zero {p q : Nat} (hq : 0 < q) (h : 2 * p ≤ q) : roundMag p q = 0 := by
  have hlt : p < q := by omega
  simp [roundMag, nearestEven, Nat.div_eq_of_lt hlt, Nat.mod_eq_of_lt hlt]
  left; omega

/-- What is a magnitude's units already is kept. -/
theorem roundMag_units {n q : Nat} (hq : 0 < q) (hn : n < infinityBits) : roundMag (units n * q) q = n := by
  have hlt : units n * q < (2 ^ 54 - 1) * 2 ^ 2044 * q := by
    have h1 : units n ≤ units (infinityBits - 1) := units_strictMono.monotone (by omega)
    rw [units_top.2] at h1
    refine Nat.mul_lt_mul_of_pos_right (lt_of_le_of_lt h1 ?_) hq
    have hV : 0 < 2 ^ 2044 := by positivity
    generalize 2 ^ 2044 = V at *
    omega
  obtain ⟨-, h⟩ := roundMag_nearest hq hlt
  have h0 := (h n).1
  have hz : gap (units n * q) q n = 0 := by simp [gap]
  rw [hz] at h0
  refine units_strictMono.injective (Nat.eq_of_mul_eq_mul_right hq ?_)
  unfold gap at h0
  omega

end Sys2Proof.Machine
end

