-- ==== Sys2Proof/Laws/PerInstr.lean ====
section
/-!
SUPPORT. A statement about every instruction as syntax, one lemma per constructor: its canonical word has its reserved
bits 42:32 zero (30_encoding R89).
-/

namespace Sys2Proof.Laws.EncodesCanonically

/-- The encoded word is canonical (R89). -/
def Statement (i : Instr) : Prop := (encode i).extractLsb' 32 11 = 0

theorem halt : Statement .halt := encodeFields_reserved _ _ _ _ _
theorem inN : Statement .inN := encodeFields_reserved _ _ _ _ _
theorem outN : Statement .outN := encodeFields_reserved _ _ _ _ _
theorem inS (a : AddrField) : Statement (.inS a) := encodeFields_reserved _ _ _ _ _
theorem outS (a : AddrField) : Statement (.outS a) := encodeFields_reserved _ _ _ _ _
theorem add (na nb : NarrowSel) : Statement (.add na nb) := encodeFields_reserved _ _ _ _ _
theorem sub (na nb : NarrowSel) : Statement (.sub na nb) := encodeFields_reserved _ _ _ _ _
theorem mul (na nb : NarrowSel) : Statement (.mul na nb) := encodeFields_reserved _ _ _ _ _
theorem div (na nb : NarrowSel) : Statement (.div na nb) := encodeFields_reserved _ _ _ _ _
theorem con (fr : FullSel) : Statement (.con fr) := encodeFields_reserved _ _ _ _ _
theorem push (fr : FullSel) : Statement (.push fr) := encodeFields_reserved _ _ _ _ _
theorem pop (fr : FullSel) : Statement (.pop fr) := encodeFields_reserved _ _ _ _ _
theorem ld (fr : FullSel) (a : AddrField) : Statement (.ld fr a) := encodeFields_reserved _ _ _ _ _
theorem st (fr : FullSel) (a : AddrField) : Statement (.st fr a) := encodeFields_reserved _ _ _ _ _
theorem jmp (a : AddrField) : Statement (.jmp a) := encodeFields_reserved _ _ _ _ _
theorem jgr (a : AddrField) : Statement (.jgr a) := encodeFields_reserved _ _ _ _ _
theorem jge (a : AddrField) : Statement (.jge a) := encodeFields_reserved _ _ _ _ _
theorem jeq (a : AddrField) : Statement (.jeq a) := encodeFields_reserved _ _ _ _ _
theorem jne (a : AddrField) : Statement (.jne a) := encodeFields_reserved _ _ _ _ _
theorem jle (a : AddrField) : Statement (.jle a) := encodeFields_reserved _ _ _ _ _
theorem jls (a : AddrField) : Statement (.jls a) := encodeFields_reserved _ _ _ _ _

end Sys2Proof.Laws.EncodesCanonically
end

