-- ==== Sys2Proof/Laws/Rounding.lean ====
section
/-!
SUPPORT. The rounding of magnitudes carried over to rational numbers: the value of a finite pattern, and the pattern
rounded from a value.
-/

namespace Sys2Proof.Machine

/-- The sign of a value as a factor. -/
def signFactor (neg : Bool) : ℚ := if neg then -1 else 1

theorem unitsPerOne_pos : (0 : ℚ) < (unitsPerOne : ℚ) := by
  simp only [unitsPerOne_eq, Nat.cast_pow, Nat.cast_ofNat]; positivity

theorem abs_mul_pos {c : ℚ} (hc : 0 < c) (y : ℚ) : |y| * c = |y * c| := by rw [abs_mul, abs_of_pos hc]

/-- The finite patterns and their values. -/
theorem finiteValue_eq_some {v : Word} {x : ℚ} :
    finiteValue v = some x ↔
      magnitudeBits v < infinityBits ∧ signFactor v.msb * (units (magnitudeBits v) : ℚ) / (unitsPerOne : ℚ) = x := by
  unfold finiteValue signFactor
  rcases Nat.lt_trichotomy (magnitudeBits v) infinityBits with h' | h' | h'
  · simp [f64_finite h', h']
  · rw [f64_infinite h']
    exact ⟨fun h => (by cases h), fun h => absurd h.1 (by omega)⟩
  · simp [f64_nan h']; omega

theorem finiteValue_withSign {s : Bool} {n : Nat} (h : n < infinityBits) :
    finiteValue (withSign s n) = some (signFactor s * (units n : ℚ) / (unitsPerOne : ℚ)) := by
  unfold finiteValue signFactor
  rw [f64_withSign h]

/-- Patterns with no finite value are the infinities and the NaNs. -/
theorem finiteValue_eq_none {v : Word} : finiteValue v = none ↔ infinityBits ≤ magnitudeBits v := by
  unfold finiteValue
  rcases Nat.lt_trichotomy (magnitudeBits v) infinityBits with h' | h' | h'
  · simp [f64_finite h', h']
  · simp [f64_infinite h', h']
  · simp [f64_nan h']; omega

/-- A pattern with a finite value is read as its sign and the units of that value. -/
theorem finiteValue_cases {v : Word} {x : ℚ} (h : finiteValue v = some x) :
    ∃ m, f64 v = .finite v.msb m ∧ x = signFactor v.msb * (m : ℚ) / (unitsPerOne : ℚ) := by
  obtain ⟨h1, h2⟩ := finiteValue_eq_some.1 h
  exact ⟨_, f64_finite h1, h2.symm⟩

@[simp] theorem abs_signFactor (s : Bool) : |signFactor s| = 1 := by cases s <;> simp [signFactor]

theorem signFactor_xor (s t : Bool) : signFactor (s ^^ t) = signFactor s * signFactor t := by
  cases s <;> cases t <;> simp [signFactor]

/-- The distance of a rational from a signed magnitude, in the units of `gap`. -/
theorem gap_le_distance {x : ℚ} {p q : Nat} (hq : 0 < q)
    (hx : |x| * ((q : ℚ) * (unitsPerOne : ℚ)) = p) (s : Bool) (n : Nat) :
    (gap p q n : ℚ) ≤ |signFactor s * (units n : ℚ) / (unitsPerOne : ℚ) - x| * ((q : ℚ) * (unitsPerOne : ℚ)) := by
  have hU := unitsPerOne_pos
  have hq' : (0 : ℚ) < q := by exact_mod_cast hq
  have hg : (gap p q n : ℚ) = |(units n : ℚ) * q - p| := by
    unfold gap
    rcases Nat.le_total p (units n * q) with h | h
    · rw [Nat.sub_eq_zero_of_le h, Nat.add_zero, Nat.cast_sub h, abs_of_nonneg]
      · push_cast; ring
      · rw [sub_nonneg]; exact_mod_cast h
    · rw [Nat.sub_eq_zero_of_le h, Nat.zero_add, Nat.cast_sub h, abs_of_nonpos]
      · push_cast; ring
      · rw [sub_nonpos]; exact_mod_cast h
  have hz : |signFactor s * (units n : ℚ) / (unitsPerOne : ℚ)| = (units n : ℚ) / unitsPerOne := by
    rw [abs_div, abs_mul, abs_of_pos hU, Nat.abs_cast]
    cases s <;> simp [signFactor]
  rw [hg, ← hx]
  calc |(units n : ℚ) * q - |x| * (q * unitsPerOne)|
      = |(units n : ℚ) / unitsPerOne - (|x|)| * (q * unitsPerOne) := by
        rw [abs_mul_pos (mul_pos hq' hU) (_ - _)]
        congr 1
        field_simp
    _ ≤ _ := by
        refine mul_le_mul_of_nonneg_right ?_ (mul_pos hq' hU).le
        rw [← hz]
        exact abs_abs_sub_abs_le _ _

/-- On the value's own side the distance is the gap itself. -/
theorem gap_eq_distance {x : ℚ} {p q : Nat} (hq : 0 < q)
    (hx : |x| * ((q : ℚ) * (unitsPerOne : ℚ)) = p) {s : Bool} (hs : signFactor s * |x| = x) (n : Nat) :
    (gap p q n : ℚ) = |signFactor s * (units n : ℚ) / (unitsPerOne : ℚ) - x| * ((q : ℚ) * (unitsPerOne : ℚ)) := by
  have hU := unitsPerOne_pos
  have hq' : (0 : ℚ) < q := by exact_mod_cast hq
  have hg : (gap p q n : ℚ) = |(units n : ℚ) * q - p| := by
    unfold gap
    rcases Nat.le_total p (units n * q) with h | h
    · rw [Nat.sub_eq_zero_of_le h, Nat.add_zero, Nat.cast_sub h, abs_of_nonneg]
      · push_cast; ring
      · rw [sub_nonneg]; exact_mod_cast h
    · rw [Nat.sub_eq_zero_of_le h, Nat.zero_add, Nat.cast_sub h, abs_of_nonpos]
      · push_cast; ring
      · rw [sub_nonpos]; exact_mod_cast h
  have hab : |signFactor s| = 1 := by cases s <;> simp [signFactor]
  rw [hg, ← hx]
  conv_rhs => rw [← hs]
  rw [mul_div_assoc, ← mul_sub, abs_mul, hab, one_mul]
  rw [abs_mul_pos (mul_pos hq' hU) (_ - _)]
  congr 1
  field_simp

/-- The least bit of a signed magnitude. -/
theorem getLsbD_zero_withSign (s : Bool) (n : Nat) :
    (withSign s n).getLsbD 0 = decide (n % 2 = 1) := by
  unfold withSign
  rw [BitVec.getLsbD_ofNat, Nat.testBit_zero]
  cases s
  · simp
  · have : (2 ^ 63 + n) % 2 = n % 2 := by omega
    simp [-Nat.reducePow, this]

/-- A signed magnitude rounded from the absolute value `p / q` units of a rational is that rational rounded to nearest,
ties to even (42_arithmetic R160 (a), (c)). -/
theorem isRounded_withSign {x : ℚ} {p q : Nat} {s : Bool} (hq : 0 < q)
    (hx : |x| * ((q : ℚ) * (unitsPerOne : ℚ)) = p) (hs : signFactor s * |x| = x) :
    IsRounded x (withSign s (roundMag p q)) := by
  have hU := unitsPerOne_pos
  have hq' : (0 : ℚ) < q := by exact_mod_cast hq
  have hqU := mul_pos hq' hU
  have hT : (2 : ℚ) ^ 1024 - 2 ^ 970 ≤ |x| ↔ (2 ^ 54 - 1) * 2 ^ 2044 * q ≤ p := by
    have e : (((2 ^ 54 - 1) * 2 ^ 2044 * q : Nat) : ℚ) = ((2 : ℚ) ^ 1024 - 2 ^ 970) * (q * unitsPerOne) := by
      rw [Nat.cast_mul, Nat.cast_mul, Nat.cast_sub (by norm_num)]
      simp only [unitsPerOne_eq, Nat.cast_pow, Nat.cast_ofNat, Nat.cast_one]
      rw [show (1024 : ℕ) = 54 + 970 from rfl, show (2044 : ℕ) = 970 + 1074 from rfl, pow_add _ 54, pow_add _ 970]
      generalize (2 : ℚ) ^ 970 = u
      generalize (2 : ℚ) ^ 1074 = v
      ring
    rw [← mul_le_mul_iff_left₀ hqU, hx, ← e, Nat.cast_le]
  unfold IsRounded
  split
  · rename_i h
    rw [hT] at h
    rw [roundMag_overflow hq h, infinity]
    have hx0 : x ≠ 0 := by
      rintro rfl
      rw [abs_zero, zero_mul] at hx
      have hp : p = 0 := by exact_mod_cast hx.symm
      subst hp
      have : 0 < (2 ^ 54 - 1) * 2 ^ 2044 * q := by positivity
      omega
    congr 1
    have hax := abs_pos.2 hx0
    cases s
    · have h1 : |x| = x := by simpa [signFactor] using hs
      exact (decide_eq_false (not_lt.2 (h1 ▸ abs_nonneg x))).symm
    · have h1 : -|x| = x := by simpa [signFactor] using hs
      exact (decide_eq_true (by linarith)).symm
  · rename_i h
    rw [hT, not_le] at h
    obtain ⟨hlt, hn⟩ := roundMag_nearest hq h
    refine ⟨_, finiteValue_withSign hlt, fun z ζ hz => ?_⟩
    obtain ⟨-, rfl⟩ := finiteValue_eq_some.1 hz
    have h1 := gap_eq_distance hq hx hs (roundMag p q)
    have h2 := gap_le_distance hq hx z.msb (magnitudeBits z)
    obtain ⟨h3, h4⟩ := hn (magnitudeBits z)
    have h3' : (gap p q (roundMag p q) : ℚ) ≤ gap p q (magnitudeBits z) := by exact_mod_cast h3
    refine ⟨?_, fun he hne => ?_⟩
    · rw [← mul_le_mul_iff_left₀ hqU, ← h1]
      exact h3'.trans h2
    · have h5 : gap p q (roundMag p q) = gap p q (magnitudeBits z) := by
        have : (gap p q (roundMag p q) : ℚ) = gap p q (magnitudeBits z) :=
          le_antisymm h3' (h2.trans (le_of_eq (by rw [← he, h1])))
        exact_mod_cast this
      rw [getLsbD_zero_withSign]
      have hev : roundMag p q % 2 = 0 := by
        by_contra hodd
        have heq : magnitudeBits z = roundMag p q := by
          by_contra hne'
          exact hodd (h4 h5 hne')
        rw [heq] at he hne
        have hsz : z.msb ≠ s := fun h => hne (by rw [h])
        have hzs : signFactor z.msb = - signFactor s := by
          cases hz' : z.msb <;> cases s <;> simp_all [signFactor]
        rw [hzs] at he hne
        have hxz : x = 0 := by
          have hρ : signFactor s * (units (roundMag p q) : ℚ) / (unitsPerOne : ℚ) ≠ 0 := fun h0 => hne (by
            rw [h0, neg_mul, neg_div, h0, neg_zero])
          rw [neg_mul, neg_div] at he
          rcases abs_eq_abs.1 he with h6 | h6
          · exact absurd (by linarith) hρ
          · linarith
        rw [hxz, abs_zero, zero_mul] at hx
        have hp : p = 0 := by exact_mod_cast hx.symm
        rw [hp, roundMag_zero] at hodd
        exact hodd rfl
      simp [hev]

end Sys2Proof.Machine
end

