-- ==== Sys2Proof/WellFormed.lean ====
section
/-!
DEFINITION. Static checks on an instruction: the faults its own word decides. The decoder makes none of these
checks (30_encoding R88) and the machine runs ill-formed instructions too, into the fault the spec names for them
(R97, 44_load_store R200); they are gathered here so that claims can speak of them (log entry 15).
-/

namespace Sys2Proof

/-- A narrow selector names a register: 0..10 (10_state R22). -/
def NarrowSel.valid (i : NarrowSel) : Bool := decide (i.toNat ≤ 10)

/-- A full selector names a register: 0..10 (10_state R22). -/
def FullSel.valid (i : FullSel) : Bool := decide (i.toNat ≤ 10)

/-- An address field lies in the variable zone 40001..50000 (20_memory R52). -/
def AddrField.inVariableZone (a : AddrField) : Bool := decide (40001 ≤ a.toNat ∧ a.toNat ≤ 50000)

/-- No fault of the instruction is decided by its word alone: the selectors it reads name registers (R97), and the
variable-zone address of LD, ST, IN_S or OUT_S is legal (R200, 41_system_io R145, R147). Jump targets are not
checked (45_control_transfer R220). -/
def Instr.wellFormed : Instr → Bool
  | .halt => true
  | .inN => true
  | .outN => true
  | .inS a => AddrField.inVariableZone a
  | .outS a => AddrField.inVariableZone a
  | .add na nb => NarrowSel.valid na && NarrowSel.valid nb
  | .sub na nb => NarrowSel.valid na && NarrowSel.valid nb
  | .mul na nb => NarrowSel.valid na && NarrowSel.valid nb
  | .div na nb => NarrowSel.valid na && NarrowSel.valid nb
  | .con r => FullSel.valid r
  | .push r => FullSel.valid r
  | .pop r => FullSel.valid r
  | .ld r a => FullSel.valid r && AddrField.inVariableZone a
  | .st r a => FullSel.valid r && AddrField.inVariableZone a
  | .jmp _ => true
  | .jgr _ => true
  | .jge _ => true
  | .jeq _ => true
  | .jne _ => true
  | .jle _ => true
  | .jls _ => true

end Sys2Proof
end

