-- ==== Sys2Proof/Tests/Slice0.lean ====
section
/-!
SUPPORT. The model's own tests. Expected results are the vectors and programs of 95_test_vectors, or worked out by hand
from the rule named; then, for every statement with hypotheses, states and operands that meet them.
-/

namespace Sys2Proof.Tests

open Sys2Proof.Machine

/-! ### Helpers -/

/-- The next state, if the outcome is one. -/
def nextOf : Result → Option State
  | .next t => some t
  | .fault _ => none
  | .refused _ => none

/-- A running state at `ip` with the word there, and what the test presets. -/
def at_ (ip w : Word) (sp acc : Word) (r0 r1 : Word := 0) (rest : Memory := []) : State :=
  { State.reset with
    regs := { State.reset.regs with ip := ip, sp := sp, acc := acc, r0 := r0, r1 := r1 }
    mem := Memory.write rest ip.toNat w
    runState := some .running }

/-- What a step leaves in `ip`, in a register, and in the fault record. -/
def seen (s : State) (r : Reg) : Option (Word × Word × Option FaultRecord) :=
  (nextOf (step s)).map fun t => (t.read .ip, t.read r, t.faultRecord)

/-- What a step leaves in `ip` and in the fault record. -/
def seenIp (s : State) : Option (Word × Option FaultRecord) :=
  (nextOf (step s)).map fun t => (t.read .ip, t.faultRecord)

/-- What a step leaves in `sp` and in a memory word, and the fault record. -/
def seenMem (s : State) (a : Nat) : Option (Word × Word × Option FaultRecord) :=
  (nextOf (step s)).map fun t => (t.read .sp, Memory.read t.mem a, t.faultRecord)

/-! ### WellFormed -/

/-- Each check refuses a term that breaks it alone, and passes one at its bound. -/
theorem test_wellFormed_checks :
    Instr.wellFormed (.add 10 10) = true ∧ Instr.wellFormed (.add 11 0) = false ∧
    Instr.wellFormed (.add 0 11) = false ∧ Instr.wellFormed (.con 10) = true ∧
    Instr.wellFormed (.con 11) = false ∧ Instr.wellFormed (.push 11) = false ∧
    Instr.wellFormed (.ld 0 40001) = true ∧ Instr.wellFormed (.ld 0 40000) = false ∧
    Instr.wellFormed (.ld 11 40001) = false ∧ Instr.wellFormed (.st 10 50000) = true ∧
    Instr.wellFormed (.st 0 50001) = false ∧ Instr.wellFormed (.st 31 50000) = false ∧
    Instr.wellFormed (.inS 40000) = false ∧ Instr.wellFormed (.outS 50001) = false ∧
    Instr.wellFormed (.jmp 0xFFFF_FFFF) = true := by decide

/-! ### Decoding: words written out from 30_encoding R89, R95 and 95_test_vectors -/

theorem test_decode_system_io :
    decode 0x0100_0000_0000_0000 = .ok .halt ∧ decode 0x01FF_FFFF_FFFF_FFFF = .ok .halt ∧
    decode 0x0200_0000_0000_0000 = .ok .inN ∧ decode 0x0300_0000_0000_0000 = .ok .outN ∧
    decode 0x0400_0000_0000_9C41 = .ok (.inS 40001) ∧ decode 0x0500_0000_0000_C350 = .ok (.outS 50000) := by decide

theorem test_decode_arithmetic :
    decode 0x06B0_0000_0000_0000 = .ok (.add 11 0) ∧ decode 0x0701_F800_0000_0000 = .ok (.sub 0 1) ∧
    decode 0x0801_0000_0000_0000 = .ok (.mul 0 1) ∧ decode 0x09A6_0000_0000_0000 = .ok (.div 10 6) ∧
    decode 0x0A00_F800_0000_0000 = .ok (.con 31) := by decide

theorem test_decode_stack_load_store :
    decode 0x0B00_1000_0000_0000 = .ok (.push 2) ∧ decode 0x0C00_4800_0000_0000 = .ok (.pop 9) ∧
    decode 0x0D00_5000_0000_9C41 = .ok (.ld 10 40001) ∧ decode 0x0E00_07FF_0000_9C41 = .ok (.st 0 40001) := by decide

theorem test_decode_control_transfer :
    decode 0x0F00_F800_0000_0005 = .ok (.jmp 5) ∧ decode 0x1000_0000_0000_0002 = .ok (.jgr 2) ∧
    decode 0x1100_0000_0000_0009 = .ok (.jge 9) ∧ decode 0x1200_0000_0000_0009 = .ok (.jeq 9) ∧
    decode 0x1300_0000_0000_0009 = .ok (.jne 9) ∧ decode 0x1400_0000_0000_0009 = .ok (.jle 9) ∧
    decode 0x1500_0000_FFFF_FFFF = .ok (.jls 0xFFFF_FFFF) := by decide

/-- Unassigned opcodes are refused by name (L2.2). -/
theorem test_decode_invalid :
    decode 0 = .error (.invalidOpcode 0) ∧ decode 0x1600_0000_0000_0000 = .error (.invalidOpcode 0x16) ∧
    decode 0xFFFF_FFFF_FFFF_FFFF = .error (.invalidOpcode 0xFF) := by decide

/-- The fields of L2.1's last row, and its word encoded again. -/
theorem test_decode_fields :
    let w : Word := 0x1234_5678_9ABC_DEF0
    decodeOpcode w = 0x12 ∧ decodeNarrowOperand w rotNarrowA = 3 ∧ decodeNarrowOperand w rotNarrowB = 4 ∧
    decodeFullRegister w = 10 ∧ decodeAddressField w = 0x9ABC_DEF0 ∧
    encodeFields 0x12 3 4 10 0x9ABC_DEF0 = 0x1234_5000_9ABC_DEF0 := by decide

theorem test_decodeTableWord :
    decodeTableWord 64 0x0E00_1800_0000_9C42 = some (.st 3 40002) ∧ decodeTableWord 64 0 = none := by decide

theorem test_encode : encode (.ld 2 40001) = 0x0D00_1000_0000_9C41 ∧ encode (.div 10 6) = 0x09A6_0000_0000_0000 := by
  decide

/-! ### Fetch and dispatch (L2.2) -/

theorem test_dispatch_faults :
    seenIp (at_ 0 0 40000 0) = some (0, some (.invalidOpcode 0)) ∧
    seenIp (at_ 0 0x1600_0000_0000_0000 40000 0) = some (0, some (.invalidOpcode 0x16)) ∧
    seenIp (at_ 50001 0 40000 0) = some (50001, some (.fetchOutOfBounds 50001)) ∧
    seenIp (at_ 0xFFFF_FFFF 0 40000 0) = some (0xFFFF_FFFF, some (.fetchOutOfBounds 4294967295)) := by decide

/-- The top word and a data word can be fetched. -/
theorem test_fetch_any_zone :
    seenIp (at_ 50000 0x0F00_0000_0000_0005 40000 0) = some (5, none) ∧
    seenIp (at_ 40001 0x0F00_0000_0000_0005 40000 0) = some (5, none) := by decide

theorem test_withFetchWord :
    seenIp (State.reset.withFetchWord 64 0x0F00_0000_0000_0005) = some (5, none) ∧
    (nextOf (step State.reset)) = some State.reset := by decide

/-! ### Halt and I/O (L2.3) -/

theorem test_halt :
    (nextOf (step (at_ 3 0x01FF_FFFF_FFFF_FFFF 40000 9))) =
      some { at_ 3 0x01FF_FFFF_FFFF_FFFF 40000 9 with runState := some .halted } := by decide

theorem test_inN_answers :
    let s := fun a => { at_ 5 0x0200_0000_0000_0000 40000 0x401C_0000_0000_0000 with numAnswers := [a] }
    seen (s (.value 0x7FF8_0000_0000_0001)) .acc = some (6, 0x7FF8_0000_0000_0001, none) ∧
    seen (s .malformed) .acc = some (5, 0x401C_0000_0000_0000, some .malformed) ∧
    seen (s .endOfInput) .acc = some (5, 0x401C_0000_0000_0000, some .endOfInput) := by decide

/-- With no answer the engine waits, and the answer ends the wait. -/
theorem test_inN_waits :
    let s := at_ 5 0x0200_0000_0000_0000 40000 7
    nextOf (step s) = some { s with inputWait := some .num } ∧
    nextOf (step { s with inputWait := some .num }) = some { s with inputWait := some .num } ∧
    seen { s with inputWait := some .num, numAnswers := [.value 4] } .acc = some (6, 4, none) := by decide

theorem test_outN :
    (nextOf (step (at_ 0 0x0300_0000_0000_0000 40000 0x8000_0000_0000_0000))).map (fun t => (t.output, t.read .acc))
      = some ([.num 0x8000_0000_0000_0000], 0x8000_0000_0000_0000) := by decide

theorem test_inS_strings :
    let s := fun w cs => { at_ 0 w 40000 9 with strAnswers := [.chars cs] }
    (nextOf (step (s 0x0400_0000_0000_9C41 [0x48, 0x69]))).map
        (fun t => (Memory.read t.mem 40001, Memory.read t.mem 40002, t.read .acc, t.read .ip))
      = some (0x48, 0x69, 2, 1) ∧
    seen (s 0x0400_0000_0000_9C41 []) .acc = some (1, 0, none) ∧
    (nextOf (step (s 0x0400_0000_0000_C350 [0x41]))).map (fun t => (Memory.read t.mem 50000, t.read .acc))
      = some (0x41, 1) := by decide

theorem test_inS_faults :
    let s := fun w a => { at_ 0 w 40000 9 with strAnswers := [a] }
    (nextOf (step (s 0x0400_0000_0000_C350 (.chars [0x41, 0x42])))).map
        (fun t => (t.mem, t.strAnswers, t.consumed))
      = some ([(0, 0x0400_0000_0000_C350)], [], [.str (.chars [0x41, 0x42])]) ∧
    seen (s 0x0400_0000_0000_C350 (.chars [0x41, 0x42])) .acc = some (0, 9, some (.outOfBounds 50001)) ∧
    (nextOf (step (s 0x0400_0000_0000_9C40 .endOfInput))).map (fun t => (t.faultRecord, t.strAnswers))
      = some (some (.outOfBounds 40000), [.endOfInput]) ∧
    seen (s 0x0400_0000_0000_9C41 .endOfInput) .acc = some (0, 9, some .endOfInput) := by decide

theorem test_outS_emits :
    let out := fun s => (nextOf (step s)).map fun t => (t.output, t.read .ip, t.faultRecord)
    out (at_ 0 0x0500_0000_0000_9C41 40000 2 0 0 [(40001, 0x48), (40002, 0x69)]) = some ([.str [0x48, 0x69]], 1, none) ∧
    out (at_ 0 0x0500_0000_0000_9C41 40000 0) = some ([.str []], 1, none) ∧
    out (at_ 0 0x0500_0000_0000_C350 40000 1) = some ([.str [0]], 1, none) := by decide

theorem test_outS_faults :
    let out := fun s => (nextOf (step s)).map fun t => (t.output, t.read .ip, t.faultRecord)
    out (at_ 0 0x0500_0000_0000_9C40 40000 0) = some ([], 0, some (.outOfBounds 40000)) ∧
    out (at_ 0 0x0500_0000_0000_C350 40000 2) = some ([], 0, some (.outOfBounds 50001)) ∧
    out (at_ 0 0x0500_0000_0000_9C41 40000 0x4000_0000_0000_0000) = some ([], 0, some (.outOfBounds 50001)) := by
  decide

/-! ### Arithmetic (L2.4, L2.5) -/

theorem test_add_vectors :
    let s := fun a b => at_ 0 0x0601_0000_0000_0000 40000 0 a b
    seen (s 0x3FB9_9999_9999_999A 0x3FC9_9999_9999_999A) .acc = some (1, 0x3FD3_3333_3333_3334, none) ∧
    seen (s 0x7FEF_FFFF_FFFF_FFFF 0x7FEF_FFFF_FFFF_FFFF) .acc = some (1, 0x7FF0_0000_0000_0000, none) ∧
    seen (s 0 0x8000_0000_0000_0000) .acc = some (1, 0, none) ∧
    seen (s 0x8000_0000_0000_0000 0x8000_0000_0000_0000) .acc = some (1, 0x8000_0000_0000_0000, none) ∧
    seen (at_ 5 0x0688_0000_0000_0000 40000 0) .acc = some (6, 0x0000_0000_0000_000A, none) := by decide +kernel

theorem test_add_selectors :
    seen (at_ 0 0x06B0_0000_0000_0000 40000 7) .acc = some (0, 7, some (.unknownRegister 11)) ∧
    seen (at_ 0 0x060F_0000_0000_0000 40000 7) .acc = some (0, 7, some (.unknownRegister 15)) ∧
    seen (at_ 0 0x06CB_0000_0000_0000 40000 7) .acc = some (0, 7, some (.unknownRegister 12)) := by decide

theorem test_sub_vectors :
    let s := fun a b => at_ 0 0x0701_F800_0000_0000 40000 0 a b
    seen (s 0x3FF0_0000_0000_0000 0x4008_0000_0000_0000) .acc = some (1, 0xC000_0000_0000_0000, none) ∧
    seen (s 0x4004_0000_0000_0000 0x4004_0000_0000_0000) .acc = some (1, 0, none) ∧
    seen (s 0x8000_0000_0000_0000 0) .acc = some (1, 0x8000_0000_0000_0000, none) ∧
    seen (s 0x4008_0000_0000_0000 0x3FF0_0000_0000_0000) .acc = some (1, 0x4000_0000_0000_0000, none) := by
  decide +kernel

theorem test_mul_vectors :
    let s := fun a b => at_ 0 0x0801_0000_0000_0000 40000 0 a b
    seen (s 0x4000_0000_0000_0000 0x4008_0000_0000_0000) .acc = some (1, 0x4018_0000_0000_0000, none) ∧
    seen (s 0xBFF0_0000_0000_0000 0) .acc = some (1, 0x8000_0000_0000_0000, none) ∧
    seen (s 0x7FEF_FFFF_FFFF_FFFF 0x4000_0000_0000_0000) .acc = some (1, 0x7FF0_0000_0000_0000, none) ∧
    seen (s 1 0x3FE0_0000_0000_0000) .acc = some (1, 0, none) ∧
    seen (s 0x8000_0000_0000_0001 0x3FE0_0000_0000_0000) .acc = some (1, 0x8000_0000_0000_0000, none) := by
  decide +kernel

theorem test_div_vectors :
    let s := fun a b => at_ 0 0x0901_0000_0000_0000 40000 0 a b
    seen (s 0x3FF0_0000_0000_0000 0x4008_0000_0000_0000) .acc = some (1, 0x3FD5_5555_5555_5555, none) ∧
    seen (s 0x3FF0_0000_0000_0000 0x8000_0000_0000_0000) .acc = some (1, 0xFFF0_0000_0000_0000, none) ∧
    seen (s 0xBFF0_0000_0000_0000 0) .acc = some (1, 0xFFF0_0000_0000_0000, none) ∧
    seen (s 0xBFF0_0000_0000_0000 0x7FF0_0000_0000_0000) .acc = some (1, 0x8000_0000_0000_0000, none) ∧
    seen (s 3 0x4000_0000_0000_0000) .acc = some (1, 2, none) := by decide +kernel

/-- The NaN rows: the result is the open pattern, whatever it is, and there is no fault. -/
theorem test_nan_results :
    ieeeAdd (f64 0x7FF0_0000_0000_0000) (f64 0xFFF0_0000_0000_0000) = none ∧
    ieeeMul (f64 0) (f64 0x7FF0_0000_0000_0000) = none ∧
    ieeeDiv (f64 0) (f64 0) = none ∧
    ieeeDiv (f64 0x7FF0_0000_0000_0000) (f64 0x7FF0_0000_0000_0000) = none ∧
    ieeeSub (f64 0x7FF8_0000_0000_0000) (f64 0) = none := by decide +kernel

theorem test_con_vectors :
    let s := fun a => at_ 0 0x0A00_0000_0000_0000 40000 0 a
    seen (s 0x0020_0000_0000_0001) .acc = some (1, 0x4340_0000_0000_0000, none) ∧
    seen (s 0x0020_0000_0000_0003) .acc = some (1, 0x4340_0000_0000_0002, none) ∧
    seen (s 0x7FFF_FFFF_FFFF_FFFF) .acc = some (1, 0x43E0_0000_0000_0000, none) ∧
    seen (s 0x8000_0000_0000_0000) .acc = some (1, 0xC3E0_0000_0000_0000, none) ∧
    seen (s 0xFFFF_FFFF_FFFF_FFFF) .acc = some (1, 0xBFF0_0000_0000_0000, none) ∧
    seen (at_ 7 0x0A00_4000_0000_0000 40000 0) .acc = some (8, 0x401C_0000_0000_0000, none) := by decide +kernel

theorem test_con_selector :
    seen (at_ 0 0x0A00_F800_0000_0000 40000 7) .acc = some (0, 7, some (.unknownRegister 31)) := by decide

/-! ### Stack (L2.6) -/

theorem test_push_rows :
    let s := fun w sp => at_ 7 w sp 0 0x3FF8_0000_0000_0000
    seenMem (s 0x0B00_0000_0000_0000 30001) 30001 = some (30000, 0x3FF8_0000_0000_0000, none) ∧
    seenMem (s 0x0B00_4800_0000_0000 40000) 40000 = some (39999, 40000, none) ∧
    seenMem (s 0x0B00_4000_0000_0000 40000) 40000 = some (39999, 7, none) := by decide

theorem test_push_faults :
    let s := fun w sp => at_ 7 w sp 0 0x3FF8_0000_0000_0000
    seenMem (s 0x0B00_0000_0000_0000 30000) 30000 = some (30000, 0, some (.stackFull 30000)) ∧
    seenMem (s 0x0B00_0000_0000_0000 40001) 40001 = some (40001, 0, some (.badStackPointer 40001)) ∧
    seenMem (s 0x0B00_0000_0000_0000 (-1)) 0 = some (-1, 0, some (.badStackPointer (-1))) ∧
    seenMem (s 0x0B00_5800_0000_0000 30000) 30000 = some (30000, 0, some (.unknownRegister 11)) := by decide

theorem test_pop_rows :
    let s := fun w => at_ 3 w 39999 0 0 0 [(40000, 12345)]
    (nextOf (step (s 0x0C00_1800_0000_0000))).map
        (fun t => (t.read .r3, t.read .sp, t.read .ip, Memory.read t.mem 40000)) = some (12345, 40000, 4, 12345) ∧
    seen (s 0x0C00_4800_0000_0000) .sp = some (4, 12345, none) ∧
    seen (s 0x0C00_4000_0000_0000) .sp = some (12345, 40000, none) := by decide

theorem test_pop_faults :
    seen (at_ 3 0x0C00_1800_0000_0000 40000 0) .sp = some (3, 40000, some (.stackEmpty 40000)) ∧
    seen (at_ 3 0x0C00_1800_0000_0000 29999 0) .sp = some (3, 29999, some (.badStackPointer 29999)) ∧
    seen (at_ 3 0x0C00_5800_0000_0000 40000 0) .sp = some (3, 40000, some (.unknownRegister 11)) := by decide

/-! ### Load and store (L1.3, L2.7) -/

theorem test_ld_rows :
    seen (at_ 2 0x0D00_0000_0000_C350 40000 0 0 0 [(50000, 5)]) .r0 = some (3, 5, none) ∧
    seen (at_ 2 0x0D00_4000_0000_9C41 40000 0 0 0 [(40001, 5)]) .sp = some (5, 40000, none) ∧
    seen (at_ 2 0x0D00_4800_0000_9C41 40000 0 0 0 [(40001, 30001)]) .sp = some (3, 30001, none) := by decide

theorem test_ld_faults :
    seen (at_ 0 0x0D00_0000_0000_9C40 40000 0 8) .r0 = some (0, 8, some (.outOfBounds 40000)) ∧
    seen (at_ 0 0x0D00_0000_0000_C351 40000 0 8) .r0 = some (0, 8, some (.outOfBounds 50001)) ∧
    seen (at_ 0 0x0D00_5800_0000_0000 40000 0 8) .r0 = some (0, 8, some (.unknownRegister 11)) := by decide

theorem test_st_rows :
    seenMem (at_ 4 0x0E00_4000_0000_9C41 40000 0) 40001 = some (40000, 4, none) ∧
    seenMem (at_ 4 0x0E00_0000_0000_C350 40000 0 6) 50000 = some (40000, 6, none) ∧
    seenMem (at_ 4 0x0E00_07FF_0000_9C41 40000 0 6) 40001 = some (40000, 6, none) := by decide

theorem test_st_faults :
    seenMem (at_ 0 0x0E00_0000_0000_7531 40000 0 6) 30001 = some (40000, 0, some (.outOfBounds 30001)) ∧
    seenMem (at_ 0 0x0E00_0000_0000_C351 40000 0 6) 50001 = some (40000, 0, some (.outOfBounds 50001)) ∧
    seenMem (at_ 0 0x0E00_F800_0000_9C41 40000 0 6) 40001 = some (40000, 0, some (.unknownRegister 31)) := by decide

/-! ### Control transfer (L2.8) -/

/-- The jumps JGR, JGE, JEQ, JNE, JLE, JLS to 9 at address 4, with a value in `acc`: which are taken. -/
def taken (acc : Word) : List Bool :=
  [0x10, 0x11, 0x12, 0x13, 0x14, 0x15].map fun op =>
    decide (seenIp (at_ 4 (BitVec.ofNat 64 (op * 2 ^ 56 + 9)) 40000 acc) = some (9, none))

theorem test_conditional_jumps :
    taken 0 = [false, true, true, false, true, false] ∧
    taken 0x8000_0000_0000_0000 = [false, false, false, true, true, true] ∧
    taken 1 = [true, true, false, true, false, false] ∧
    taken 0x7FF8_0000_0000_0000 = [true, true, false, true, false, false] ∧
    taken 0xFFF8_0000_0000_0000 = [false, false, false, true, true, true] ∧
    taken 0x7FFF_FFFF_FFFF_FFFF = [true, true, false, true, false, false] := by decide

/-- A jump not taken falls through; a target out of memory is accepted. -/
theorem test_jumps :
    seenIp (at_ 4 0x1500_0000_0000_0009 40000 0) = some (5, none) ∧
    seenIp (at_ 0 0x1000_0000_0000_C351 40000 1) = some (50001, none) ∧
    seenIp (at_ 0 0x0F00_F800_0000_0005 40000 0) = some (5, none) ∧
    seenIp (at_ 0 0x0F00_0000_FFFF_FFFF 40000 0) = some (0xFFFF_FFFF, none) := by decide

/-! ### The host's transactions (70_reset R271 to R275) -/

theorem test_host_session :
    (nextOf (hostTransact (.load [0xFF00_0000_0000_0000]) State.reset)).map (fun t => (t.runState, t.mem))
      = some (some .ready, [(0, 0xFF00_0000_0000_0000)]) ∧
    nextOf (hostTransact .run State.reset) = none ∧
    nextOf (hostTransact (.presetReg .ip 1) { State.reset with runState := some .ready }) = none ∧
    nextOf (hostTransact (.presetMem 50001 1) { State.reset with runState := some .ready }) = none ∧
    nextOf (hostTransact .run { State.reset with runState := some .ready })
      = some { State.reset with runState := some .running } ∧
    nextOf (hostTransact .discard State.reset) = some { State.reset with discarded := true } := by decide

theorem test_snapshot_only_after_the_end :
    hostSnapshot (at_ 0 0 40000 0) = none ∧ (hostSnapshot { State.reset with runState := some .halted }).isSome = true ∧
    hostStatus { State.reset with runState := some .faulted } = some .faulted := by decide

theorem test_reset_memory_wf : Memory.wf State.reset.mem = true := by decide

/-! ### Witnesses: for each statement with hypotheses, concrete values that meet them, at the bounds of each clause -/

/-- A reset state with a value in `sp`. -/
def spAt (sp : Word) : State := State.reset.write .sp sp

/-- An outcome with a next state is that next state. -/
theorem exists_next {r : Result} (h : (nextOf r).isSome = true) : ∃ t, r = .next t := by
  cases r with
  | next t => exact ⟨t, rfl⟩
  | fault f => cases h
  | refused f => cases h

theorem witness_RotationsMoveBits : (0 < 64 ∧ 0 < 64) ∧ (63 < 64 ∧ 63 < 64) := by decide

theorem witness_FieldCodecRoundTrips :
    (0xFFFF_F800_FFFF_FFFF : Word).extractLsb' 32 11 = 0 ∧ (0 : Word).extractLsb' 32 11 = 0 := by decide

theorem witness_UnreadBitsAreIgnored :
    let w : Word := 0x0701_0000_0000_0000
    let w' : Word := 0x0701_FFFF_FFFF_FFFF
    let i : Instr := .sub 0 1
    decode w = .ok i ∧ w' &&& i.mnemonic.readMask = w &&& i.mnemonic.readMask := by decide

theorem witness_StepRunsTheDecodedInstruction :
    let s := at_ 50000 0x0F00_0000_0000_0005 40000 0
    s.discarded = false ∧ s.runState = some .running ∧ (s.read .ip).toNat ≤ 50000 ∧
      decode (Memory.read s.mem (s.read .ip).toNat) = .ok (.jmp 5) := by decide

theorem witness_FetchIsBoundsChecked :
    ((at_ 50000 0 40000 0).read .ip).toNat ≤ 50000 ∧
    (let s := at_ 50001 0 40000 0
     50000 < (s.read .ip).toNat ∧ s.discarded = false ∧ s.runState = some .running) := by decide

theorem witness_DispatchSelectsOneHandler :
    (∀ n ∈ [0x0100_0000_0000_0000, 0x1500_0000_0000_0000],
      let w : Word := BitVec.ofNat 64 n
      let s := at_ 50000 w 40000 0
      let op := (Memory.read s.mem (s.read .ip).toNat).extractLsb' 56 8
      s.discarded = false ∧ s.runState = some .running ∧ (s.read .ip).toNat ≤ 50000 ∧
        1 ≤ op.toNat ∧ op.toNat ≤ 0x15) ∧
    (∀ n ∈ [0, 0x1600_0000_0000_0000, 0xFF00_0000_0000_0000],
      let w : Word := BitVec.ofNat 64 n
      let s := at_ 0 w 40000 0
      let op := (Memory.read s.mem (s.read .ip).toNat).extractLsb' 56 8
      s.discarded = false ∧ s.runState = some .running ∧ (s.read .ip).toNat ≤ 50000 ∧
        (op.toNat = 0 ∨ 0x16 ≤ op.toNat)) := by decide

theorem witness_NoStepOutsideRunning :
    ∀ r ∈ [none, some RunState.ready, some .halted, some .faulted],
      let s := { State.reset with runState := r }
      s.discarded = false ∧ s.runState ≠ some .running := by decide

/-- A completed handler for a fall-through, a jump taken and not, and a move into `ip`. -/
theorem witness_NextInstructionPointer :
    let s := { at_ 5 0 39999 1 0 0 [(40000, 9)] with numAnswers := [.value 4] }
    s.runState = some .running ∧ s.inputWait = none ∧
    ∀ i ∈ [Instr.halt, .inN, .outN, .add 0 10, .push 0, .pop 8, .pop 9, .ld 8 40001, .st 0 50000, .jmp 5, .jgr 9, .jls 9],
      (nextOf (exec i s)).any (fun t => t.runState ≠ some .faulted && t.inputWait = none) = true := by decide

theorem witness_OnlyRunStateTransitions :
    step State.reset = .next State.reset ∧ (∃ t, step (at_ 0 0 40000 0) = .next t) ∧
    ∃ t, hostTransact .discard State.reset = .next t := ⟨rfl, exists_next (by decide), exists_next (by decide)⟩

theorem witness_EveryStepHasANextState : State.reset.discarded = false := by decide

theorem witness_HaltStopsTheEngine :
    (0x01FF_FFFF_FFFF_FFFF : Word).extractLsb' 56 8 = 0x01#8 ∧ State.reset.discarded = false ∧
    ∃ t, exec .halt State.reset = .next t := ⟨by decide, by decide, exists_next (by decide)⟩

theorem witness_InNReadsOneNumber :
    (0x02FF_FFFF_FFFF_FFFF : Word).extractLsb' 56 8 = 0x02#8 ∧
    State.reset.numAnswers = [] ∧
    ∀ a ∈ [NumAnswer.value (-1), .malformed, .endOfInput],
      { State.reset with numAnswers := [a] }.numAnswers = a :: [] := by decide

theorem witness_InputWaitBlocksTheEngine :
    (let s := at_ 0 0x0200_0000_0000_0000 40000 0
     s.discarded = false ∧ s.runState = some .running ∧ s.nextInstr = .ok .inN ∧ s.numAnswers = []) ∧
    ∀ n ∈ [40001, 50000],
      let b : AddrField := BitVec.ofNat 32 n
      let s := at_ 0 (0x0400_0000_0000_0000 + b.setWidth 64) 40000 0
      s.discarded = false ∧ s.runState = some .running ∧ s.nextInstr = .ok (.inS b) ∧ 40001 ≤ b.toNat ∧
        b.toNat ≤ 50000 ∧ s.strAnswers = [] := by decide

theorem witness_OutNEmitsTheAccumulator : (0x03FF_FFFF_FFFF_FFFF : Word).extractLsb' 56 8 = 0x03#8 := by decide

/-- Each clause at its bounds: a base out of its zone, each answer, a string one too long, one that fits exactly. -/
theorem witness_InSWritesTheString :
    (0x04FF_FFFF_FFFF_FFFF : Word).extractLsb' 56 8 = 0x04#8 ∧
    (∀ n ∈ [0, 40000, 50001, 0xFFFF_FFFF],
      let a : AddrField := BitVec.ofNat 32 n
      a.toNat < 40001 ∨ 50000 < a.toNat) ∧
    (∀ n ∈ [40001, 50000],
      let a : AddrField := BitVec.ofNat 32 n
      40001 ≤ a.toNat ∧ a.toNat ≤ 50000) ∧
    State.reset.strAnswers = [] ∧
    (∀ c ∈ [StrAnswer.malformed, .endOfInput, .chars [0x41], .chars [0x41, 0x42]],
      { State.reset with strAnswers := [c] }.strAnswers = c :: []) ∧
    50001 - (50000 : AddrField).toNat < [(0x41 : Word), 0x42].length ∧
    [(0x41 : Word)].length ≤ 50001 - (50000 : AddrField).toNat ∧
    ([] : List Word).length ≤ 50001 - (40001 : AddrField).toNat ∧ Memory.wf State.reset.mem = true := by decide

theorem witness_OutSEmitsTheString :
    (0x05FF_FFFF_FFFF_FFFF : Word).extractLsb' 56 8 = 0x05#8 ∧
    (∀ n ∈ [40000, 50001],
      let a : AddrField := BitVec.ofNat 32 n
      a.toNat < 40001 ∨ 50000 < a.toNat) ∧
    (∀ n ∈ [40001, 50000],
      let a : AddrField := BitVec.ofNat 32 n
      40001 ≤ a.toNat ∧ a.toNat ≤ 50000 ∧
      50001 - a.toNat < ((State.reset.write .acc (50002 - a.setWidth 64)).regs.acc).toNat ∧
      ((State.reset.write .acc (50001 - a.setWidth 64)).regs.acc).toNat ≤ 50001 - a.toNat) := by decide

theorem witness_AddWritesTheSum :
    (0x06FF_FFFF_FFFF_FFFF : Word).extractLsb' 56 8 = 0x06#8 ∧ 10 < (11 : NarrowSel).toNat ∧
    ((10 : NarrowSel).toNat ≤ 10 ∧ 10 < (15 : NarrowSel).toNat) ∧ Reg.ofIndex (10 : NarrowSel).toNat = some .acc := by
  decide

theorem witness_SubWritesTheDifference :
    (0x07FF_FFFF_FFFF_FFFF : Word).extractLsb' 56 8 = 0x07#8 ∧ 10 < (11 : NarrowSel).toNat ∧
    ((10 : NarrowSel).toNat ≤ 10 ∧ 10 < (15 : NarrowSel).toNat) ∧ Reg.ofIndex (10 : NarrowSel).toNat = some .acc ∧
    finiteValue 0x7FEF_FFFF_FFFF_FFFF = some (2 ^ 1024 - 2 ^ 971) ∧ finiteValue 0x8000_0000_0000_0000 = some 0 := by
  decide +kernel

/-- A product of zero, one of 2^1024, and one of exactly 2^-1075. -/
theorem witness_MulWritesTheProduct :
    (0x08FF_FFFF_FFFF_FFFF : Word).extractLsb' 56 8 = 0x08#8 ∧ 10 < (11 : NarrowSel).toNat ∧
    ((10 : NarrowSel).toNat ≤ 10 ∧ 10 < (15 : NarrowSel).toNat) ∧ Reg.ofIndex (10 : NarrowSel).toNat = some .acc ∧
    (∃ x y : ℚ, finiteValue 0x8000_0000_0000_0000 = some x ∧ finiteValue 0x3FF0_0000_0000_0000 = some y ∧ x * y = 0) ∧
    (∃ x y : ℚ, finiteValue 0x7FE0_0000_0000_0000 = some x ∧ finiteValue 0x4000_0000_0000_0000 = some y ∧
      (2 : ℚ) ^ 1024 ≤ |x * y|) ∧
    ∃ x y : ℚ, finiteValue 0x0000_0000_0000_0001 = some x ∧ finiteValue 0x3FE0_0000_0000_0000 = some y ∧
      |x * y| * 2 ^ 1075 ≤ 1 :=
  ⟨by decide +kernel, by decide +kernel, by decide +kernel, by decide +kernel, ⟨0, 1, by decide +kernel⟩, ⟨2 ^ 1023, 2, by decide +kernel⟩,
    ⟨1 / 2 ^ 1074, 1 / 2, by decide +kernel⟩⟩

theorem witness_DivWritesTheQuotient :
    (0x09FF_FFFF_FFFF_FFFF : Word).extractLsb' 56 8 = 0x09#8 ∧ 10 < (11 : NarrowSel).toNat ∧
    ((10 : NarrowSel).toNat ≤ 10 ∧ 10 < (15 : NarrowSel).toNat) ∧ Reg.ofIndex (10 : NarrowSel).toNat = some .acc ∧
    finiteValue 0x3FF0_0000_0000_0000 = some 1 ∧ (1 : ℚ) ≠ 0 ∧ finiteValue 0 = some 0 := by decide +kernel

theorem witness_ConConvertsTheInteger :
    (0x0AFF_FFFF_FFFF_FFFF : Word).extractLsb' 56 8 = 0x0A#8 ∧ 10 < (11 : FullSel).toNat ∧ 10 < (31 : FullSel).toNat ∧
    Reg.ofIndex (10 : FullSel).toNat = some .acc ∧ |(0x0020_0000_0000_0000 : Word).toInt| ≤ 2 ^ 53 ∧
    |(0xFFE0_0000_0000_0000 : Word).toInt| ≤ 2 ^ 53 := by decide

theorem witness_PatternsEncodeBinary64 :
    let e := fun v : Word => (v.extractLsb' 52 11).toNat
    e 0x800F_FFFF_FFFF_FFFF = 0 ∧ (0 < e 0x0010_0000_0000_0000 ∧ e 0x0010_0000_0000_0000 < 2047) ∧
    (0 < e 0x7FEF_FFFF_FFFF_FFFF ∧ e 0x7FEF_FFFF_FFFF_FFFF < 2047) ∧ e 0x7FF0_0000_0000_0000 = 2047 ∧
    (0xFFF0_0000_0000_0000 : Word).extractLsb' 0 52 = 0 := by decide

theorem witness_SumsRoundToNearestEven :
    finiteValue 0x7FEF_FFFF_FFFF_FFFF = some (2 ^ 1024 - 2 ^ 971) ∧
    finiteValue 0x0000_0000_0000_0001 = some (1 / 2 ^ 1074) := by decide +kernel

theorem witness_ProductsAndQuotientsRoundToNearestEven :
    finiteValue 0x7FEF_FFFF_FFFF_FFFF = some (2 ^ 1024 - 2 ^ 971) ∧
    finiteValue 0x8000_0000_0000_0001 = some (-1 / 2 ^ 1074) ∧ (-1 / 2 ^ 1074 : ℚ) ≠ 0 := by decide +kernel

/-- A NaN result of each operation. -/
theorem witness_NanResultsAreTheInvalidOperations :
    isNaN (fadd (infinity false) (infinity true)) = true ∧ isNaN (fsub (infinity true) (infinity true)) = true ∧
    isNaN (fmul (withSign true 0) (infinity false)) = true ∧ isNaN (fdiv (withSign false 0) (withSign true 0)) = true := by
  have h1 : ieeeAdd (f64 (infinity false)) (f64 (infinity true)) = none := by decide +kernel
  have h2 : ieeeSub (f64 (infinity true)) (f64 (infinity true)) = none := by decide +kernel
  have h3 : ieeeMul (f64 (withSign true 0)) (f64 (infinity false)) = none := by decide +kernel
  have h4 : ieeeDiv (f64 (withSign false 0)) (f64 (withSign true 0)) = none := by decide +kernel
  unfold fadd fsub fmul fdiv
  rw [h1, h2, h3, h4]
  exact ⟨isNaN_nanPattern _, isNaN_nanPattern _, isNaN_nanPattern _, isNaN_nanPattern _⟩

theorem witness_SignsOfZerosAndInfinities :
    finiteValue 0x3FF0_0000_0000_0000 = some 1 ∧ finiteValue 0xBFF0_0000_0000_0000 = some (-1) ∧
    finiteValue 0x8000_0000_0000_0000 = some 0 ∧ ((1 : ℚ) + -1 = 0 ∧ (1 : ℚ) - 1 = 0 ∧ (0 : ℚ) + 0 = 0 ∧ (1 : ℚ) ≠ 0) ∧
    (-1 : ℚ) ≠ 0 ∧ |(0 : ℚ) / -1| * 2 ^ 1075 ≤ 1 ∧ finiteValue 0x0000_0000_0000_0001 = some (1 / 2 ^ 1074) ∧
    finiteValue 0xC000_0000_0000_0000 = some (-2) ∧ (-2 : ℚ) ≠ 0 ∧ |(1 / 2 ^ 1074 : ℚ) / -2| * 2 ^ 1075 ≤ 1 := by
  decide +kernel

/-- R160 (e): 0 / -1.0 and an underflowing quotient are negative zeros; like infinities add, unlike ones subtract. -/
theorem test_signs_of_zero_quotients_and_infinite_sums :
    fdiv 0 0xBFF0_0000_0000_0000 = 0x8000_0000_0000_0000 ∧
    fdiv 0x0000_0000_0000_0001 0xC000_0000_0000_0000 = 0x8000_0000_0000_0000 ∧
    fadd 0xFFF0_0000_0000_0000 0xFFF0_0000_0000_0000 = 0xFFF0_0000_0000_0000 ∧
    fsub 0x7FF0_0000_0000_0000 0xFFF0_0000_0000_0000 = 0x7FF0_0000_0000_0000 := by decide +kernel

theorem witness_PushAndPopFollowTheDiscipline :
    (0x0BFF_FFFF_FFFF_FFFF : Word).extractLsb' 56 8 = 0x0B#8 ∧ (0x0CFF_FFFF_FFFF_FFFF : Word).extractLsb' 56 8 = 0x0C#8 ∧
    10 < (11 : FullSel).toNat ∧ Reg.ofIndex (8 : FullSel).toNat = some .ip ∧ Reg.ofIndex (9 : FullSel).toNat = some .sp ∧
    Reg.ofIndex (10 : FullSel).toNat = some .acc ∧
    (∀ n ∈ [30001, 40000],
      let v : Word := BitVec.ofNat 64 n
      30001 ≤ ((spAt v).read .sp).toNat ∧ ((spAt v).read .sp).toNat ≤ 40000) ∧
    ((spAt 30000).read .sp).toNat ≤ 30000 ∧ 40000 < ((spAt 40001).read .sp).toNat ∧
    (∀ n ∈ [30000, 39999],
      let v : Word := BitVec.ofNat 64 n
      30000 ≤ ((spAt v).read .sp).toNat ∧ ((spAt v).read .sp).toNat ≤ 39999) ∧
    40000 ≤ ((spAt 40000).read .sp).toNat ∧ ((spAt 29999).read .sp).toNat ≤ 29999 ∧
    ((10 : FullSel).toNat ≤ 10 ∧ 30000 + 10000 ≤ ((spAt 40000).read .sp).toNat) := by decide

theorem witness_StackLaws :
    (∀ n ∈ [30001, 40000],
      let v : Word := BitVec.ofNat 64 n
      Reg.ofIndex (9 : FullSel).toNat = some .sp ∧ Reg.sp ≠ .ip ∧
      30001 ≤ ((spAt v).read .sp).toNat ∧ ((spAt v).read .sp).toNat ≤ 40000 ∧ Memory.wf (spAt v).mem = true) ∧
    (∀ fr ∈ [(0 : FullSel), 9, 10], ∃ r, Reg.ofIndex fr.toNat = some r ∧ r ≠ .ip) ∧
    30000 + [(0 : FullSel), 9, 10].length ≤ ((spAt 30003).read .sp).toNat := by
  refine ⟨by decide, ?_, by decide⟩
  simp only [List.mem_cons, List.not_mem_nil, or_false, forall_eq_or_imp, forall_eq]
  exact ⟨⟨.r0, by decide⟩, ⟨.sp, by decide⟩, ⟨.acc, by decide⟩⟩

/-- Addresses and selectors at the bounds of LD and ST's clauses. -/
theorem witness_LdLoadsAVariableWord :
    (0x0DFF_FFFF_FFFF_FFFF : Word).extractLsb' 56 8 = 0x0D#8 ∧ 10 < (11 : FullSel).toNat ∧
    Reg.ofIndex (8 : FullSel).toNat = some .ip ∧ Reg.ofIndex (10 : FullSel).toNat = some .acc ∧
    (∀ n ∈ [40000, 50001],
      let a : AddrField := BitVec.ofNat 32 n
      a.toNat < 40001 ∨ 50000 < a.toNat) ∧
    ∀ n ∈ [40001, 50000],
      let a : AddrField := BitVec.ofNat 32 n
      40001 ≤ a.toNat ∧ a.toNat ≤ 50000 := by decide

theorem witness_StStoresAVariableWord :
    (0x0EFF_FFFF_FFFF_FFFF : Word).extractLsb' 56 8 = 0x0E#8 ∧ 10 < (11 : FullSel).toNat ∧
    Reg.ofIndex (8 : FullSel).toNat = some .ip ∧
    (∀ n ∈ [40000, 50001],
      let a : AddrField := BitVec.ofNat 32 n
      a.toNat < 40001 ∨ 50000 < a.toNat) ∧
    (∀ n ∈ [40001, 50000],
      let a : AddrField := BitVec.ofNat 32 n
      40001 ≤ a.toNat ∧ a.toNat ≤ 50000) ∧
    ∃ t u : State, exec (.st 0 50000) State.reset = .next t ∧ u.mem = t.mem ∧ u.read .ip = (50000 : AddrField).setWidth 64 :=
  ⟨by decide, by decide, by decide, by decide, by decide, _, State.reset.write .ip 50000, rfl, by decide, by decide⟩

theorem witness_LoadStorePairsMoveThePattern :
    Reg.ofIndex (10 : FullSel).toNat = some .acc ∧ Reg.acc ≠ .ip ∧
    (∀ n ∈ [40001, 50000],
      let a : AddrField := BitVec.ofNat 32 n
      40001 ≤ a.toNat ∧ a.toNat ≤ 50000) ∧ Memory.wf State.reset.mem = true := by
  decide

theorem witness_MemoryPrimitivesAreChecked :
    50000 < (50001 : Word).toNat ∧ (50000 : Word).toNat ≤ 50000 ∧ Memory.wf State.reset.mem = true ∧
    checkPush 40000 = .ok () ∧ checkPop 39999 = .ok () ∧ checkVariableZone 50000 = .ok () ∧ checkFits 50000 1 = .ok () := by
  decide

theorem witness_JmpSetsTheInstructionPointer :
    (0x0FFF_FFFF_FFFF_FFFF : Word).extractLsb' 56 8 = 0x0F#8 ∧
    (let s := at_ 0 0x0F00_0000_0000_C351 40000 0
     s.discarded = false ∧ s.runState = some .running ∧ 50000 < (50001 : AddrField).toNat ∧
       ∃ t, exec (.jmp 50001) s = .next t) ∧
    (let s := at_ 0 0x0F00_0000_0000_0000 40000 0
     s.nextInstr = .ok (.jmp 0) ∧ s.read .ip = (0 : AddrField).setWidth 64) ∧ (50000 : AddrField).toNat ≤ 50000 :=
  ⟨by decide, ⟨by decide, by decide, by decide, exists_next (by decide)⟩, by decide, by decide⟩

theorem witness_ConditionalJumpsTestTheAccumulator :
    ∀ op ∈ [0x10#8, 0x11#8, 0x12#8, 0x13#8, 0x14#8, 0x15#8],
      (op ++ (0x00FF_FFFF_FFFF_FFFF : BitVec 56) : Word).extractLsb' 56 8 = op := by decide

theorem witness_JumpTestOnDoubles :
    (finiteValue 0x8000_0000_0000_0001 = some (-1 / 2 ^ 1074) ∧
      (0x8000_0000_0000_0001 : Word) ≠ 0x8000_0000_0000_0000) ∧
    finiteValue 0 = some 0 ∧ finiteValue 0x7FF0_0000_0000_0000 = none ∧ finiteValue 0xFFF8_0000_0000_0000 = none := by
  decide +kernel

/-- A register the table does not list for its instruction, one instruction of each row. -/
theorem witness_RegisterFrame :
    (∃ t, exec .outN State.reset = .next t) ∧ Reg.acc ≠ .ip ∧
    (∃ t, exec (.con 0) State.reset = .next t) ∧ (Reg.sp ≠ .ip ∧ Reg.sp ≠ .acc) ∧
    (∃ t, exec (.push 0) State.reset = .next t) ∧ (Reg.acc ≠ .ip ∧ Reg.acc ≠ .sp) ∧
    (∃ t, exec (.pop 10) (spAt 39999) = .next t) ∧
    (Reg.r7 ≠ .ip ∧ Reg.r7 ≠ .sp ∧ Reg.ofIndex (10 : FullSel).toNat ≠ some .r7) ∧ ∃ t, exec (.ld 10 40001) State.reset = .next t :=
  ⟨exists_next (by decide), by decide, exists_next (by decide), by decide, exists_next (by decide), by decide, exists_next (by decide), by decide, exists_next (by decide)⟩

theorem witness_MemoryFrame :
    let s := { State.reset with strAnswers := [.chars [0x41]] }
    (∃ t, exec (.push 0) s = .next t) ∧ 39999 ≠ (s.read .sp).toNat ∧
    (∃ t, exec (.st 0 40001) s = .next t) ∧ 40002 ≠ (address 40001).toNat ∧
    (∃ t, exec (.inS 40001) s = .next t) ∧ (address 40001).toNat + [(0x41 : Word)].length ≤ 40002 ∧
    ∃ t, exec .halt s = .next t :=
  ⟨exists_next (by decide), by decide, exists_next (by decide), by decide, exists_next (by decide), by decide, exists_next (by decide)⟩

theorem witness_PortAndEngineFrame :
    (∃ t, exec .inN State.reset = .next t) ∧ Instr.inN ≠ .outN ∧ (∀ a, Instr.inN ≠ .outS a) ∧ (∀ a, Instr.inN ≠ .inS a) ∧
    (∃ t, exec .outN State.reset = .next t) ∧ Instr.outN ≠ .inN := by
  refine ⟨exists_next (by decide), by decide, ?_, ?_, exists_next (by decide), by decide⟩ <;> intro a h <;> cases h

/-- A fault with nothing consumed, and the two that consume an answer. -/
theorem witness_FaultEntryIsPrecise :
    ∀ s ∈ [at_ 0 0 40000 0, { at_ 0 0x0200_0000_0000_0000 40000 0 with numAnswers := [.malformed] },
        { at_ 0 0x0400_0000_0000_C350 40000 0 with strAnswers := [.chars [0x41, 0x42]] }],
      s.runState = some .running ∧ (nextOf (step s)).any (fun t => t.runState = some .faulted) = true := by decide

theorem witness_FaultCodesOfTheStatusPort :
    State.reset.faultRecord = none ∧ (State.reset.raise .malformed).faultRecord = some .malformed := by decide

theorem witness_FaultsEachInstructionCanRaise :
    (∀ i ∈ [Instr.inS 40000, .outS 50001, .add 11 0, .con 31, .pop 0, .ld 0 0, .st 11 40001],
      (nextOf (exec i (at_ 0 0 40000 0))).any (fun t => t.runState = some .faulted && t.faultRecord.isSome) = true) ∧
    (at_ 0 0 40000 0).nextInstr = .error (.invalidOpcode 0) := by decide

/-- Each clause of the order: the fetch, the opcode, a selector, the stack, an address, a string, an answer. -/
theorem witness_FaultPriority :
    (let s := at_ 50001 0 40000 0
     s.discarded = false ∧ s.runState = some .running ∧ 50000 < (s.read .ip).toNat) ∧
    (let s := at_ 50000 0 40000 0
     (s.read .ip).toNat ≤ 50000 ∧ decode (Memory.read s.mem (s.read .ip).toNat) = .error (.invalidOpcode 0)) ∧
    ((at_ 0 0x06CB_0000_0000_0000 40000 0).nextInstr = .ok (.add 12 11) ∧ Instr.badSelector (.add 12 11) = some 12) ∧
    (∀ n ∈ [30000, 40001],
      let sp : Word := BitVec.ofNat 64 n
      let s := at_ 0 0x0B00_0000_0000_0000 sp 0
      s.nextInstr = .ok (.push 0) ∧ Instr.badSelector (.push 0) = none ∧
        ((s.read .sp).toNat ≤ 30000 ∨ 40000 < (s.read .sp).toNat)) ∧
    (∀ n ∈ [40000, 29999],
      let sp : Word := BitVec.ofNat 64 n
      let s := at_ 0 0x0C00_0000_0000_0000 sp 0
      s.nextInstr = .ok (.pop 0) ∧ Instr.badSelector (.pop 0) = none ∧
        (40000 ≤ (s.read .sp).toNat ∨ (s.read .sp).toNat < 30000)) ∧
    ((at_ 0 0x0D00_0000_0000_9C40 40000 0).nextInstr = .ok (.ld 0 40000) ∧ Instr.badSelector (.ld 0 40000) = none) ∧
    (let s := at_ 0 0x0500_0000_0000_C350 40000 2
     s.nextInstr = .ok (.outS 50000) ∧ 50001 - (50000 : AddrField).toNat < (s.read .acc).toNat) ∧
    (∀ a ∈ [NumAnswer.malformed, .endOfInput],
      let s := { at_ 0 0x0200_0000_0000_0000 40000 0 with numAnswers := [a] }
      s.nextInstr = .ok .inN ∧ s.numAnswers = a :: []) ∧
    (∀ a ∈ [StrAnswer.malformed, .endOfInput, .chars [0x41, 0x42]],
      let s := { at_ 0 0x0400_0000_0000_C350 40000 0 with strAnswers := [a] }
      s.nextInstr = .ok (.inS 50000) ∧ s.strAnswers = a :: []) := by decide

theorem witness_SelectorsNameElevenRegisters :
    (10 : NarrowSel).toNat ≤ 10 ∧ 10 < (11 : NarrowSel).toNat ∧ (10 : FullSel).toNat ≤ 10 ∧ 10 < (11 : FullSel).toNat := by
  decide

/-- The longest program, one word longer, and the empty one. -/
theorem witness_LoadCopiesTheProgram :
    (List.replicate 30001 (0 : Word)).length ≤ 30001 ∧ 30001 < (List.replicate 30002 (0 : Word)).length ∧
    ∃ t u, hostTransact (.load []) State.reset = .next t ∧ hostTransact .run t = .next u := by
  rw [List.length_replicate, List.length_replicate]
  exact ⟨by decide, by decide, _, _, rfl, rfl⟩

theorem witness_PresetsBeforeTheRun :
    let s := { State.reset with runState := some .ready }
    s.discarded = false ∧ s.runState = some .ready ∧ Reg.sp ≠ .ip ∧ 50000 ≤ 50000 ∧ Memory.wf s.mem = true ∧
    (∃ t, hostTransact (.presetMem 50000 7) s = .next t) ∧ State.reset.runState ≠ some .ready :=
  ⟨by decide, by decide, by decide, by decide, by decide, exists_next (by decide), by decide⟩

theorem witness_RunStartsAtAddressZero :
    let s := { State.reset with runState := some .ready }
    s.discarded = false ∧ s.runState = some .ready ∧ State.inv s = true ∧ ∃ t, hostTransact .run s = .next t :=
  ⟨by decide, by decide, by decide, exists_next (by decide)⟩

theorem witness_ResetValues : ∃ t, hostTransact (.load [1]) State.reset = .next t := exists_next (by decide)

/-- States of the invariant: a running IN_N that waits, and a faulted session. -/
theorem witness_EveryStepKeepsTheSessionInvariant :
    ∀ s ∈ [at_ 0 0x0200_0000_0000_0000 40000 0, { at_ 0 0x0200_0000_0000_0000 40000 0 with inputWait := some .num },
        (at_ 0 0 40000 0).raise (.invalidOpcode 0)],
      State.inv s = true ∧ (nextOf (step s)).isSome = true := by decide

theorem witness_HostTransactionsKeepTheSessionInvariant :
    State.inv State.reset = true ∧
    ∀ h ∈ [HostTransaction.load [1], .answerNum .malformed, .discard],
      (nextOf (hostTransact h State.reset)).isSome = true := by decide

theorem witness_LoadedCodeIsImmutable :
    (∃ t, Host.Core.run core 2 (at_ 0 0x0E00_0000_0000_9C41 40000 0) = .next t) ∧ 30000 ≤ 30000 := ⟨exists_next (by decide), by decide⟩

theorem witness_TrafficIsAnOrderedSequence :
    ∃ t, Host.Core.run core 2 { at_ 0 0x0200_0000_0000_0000 40000 0 with numAnswers := [.value 4] } = .next t :=
  exists_next (by decide)

end Sys2Proof.Tests
end

section
/-!
PROOFS. The primitives of 00_scope: the rotations bit by bit (R11), the number a pattern encodes (R12), and the
rounding of a converted integer (R15).
-/

namespace Sys2Proof

/-! ### Rotations (00_scope R11) -/

theorem getLsbD_rotl64 (w : Word) {r i : Nat} (hr : r < 64) (hi : i < 64) :
    (rotl64 w r).getLsbD i = w.getLsbD ((i + 64 - r) % 64) := by
  rw [rotl64, BitVec.getLsbD_rotateLeft, Nat.mod_eq_of_lt hr]
  rcases Nat.lt_or_ge i r with hir | hir
  · rw [decide_eq_true hir, cond_true, show 64 - r + i = (i + 64 - r) % 64 by omega]
  · rw [decide_eq_false (by omega), cond_false, decide_eq_true hi, Bool.true_and,
      show i - r = (i + 64 - r) % 64 by omega]

theorem getLsbD_rotr64 (w : Word) {r i : Nat} (hr : r < 64) (hi : i < 64) :
    (rotr64 w r).getLsbD i = w.getLsbD ((i + r) % 64) := by
  rw [rotr64, getLsbD_rotl64 w (Nat.mod_lt _ (by decide)) hi]
  congr 1
  omega

theorem rotl64_zero (w : Word) : rotl64 w 0 = w :=
  BitVec.eq_of_getLsbD_eq fun i hi => by
    rw [getLsbD_rotl64 w (by decide) hi, show (i + 64 - 0) % 64 = i by omega]

/-- Bit `i` moves to `(i + r) mod 64` and back. -/
theorem rotr64_rotl64 (w : Word) {r : Nat} (hr : r < 64) : rotr64 (rotl64 w r) r = w :=
  BitVec.eq_of_getLsbD_eq fun i hi => by
    rw [getLsbD_rotr64 _ hr hi, getLsbD_rotl64 w hr (Nat.mod_lt _ (by decide)),
      show ((i + r) % 64 + 64 - r) % 64 = i by omega]

end Sys2Proof

namespace Sys2Proof.Machine

/-! ### The number a pattern encodes (00_scope R12) -/

/-- The units of a pattern's encoded magnitude, by its exponent and fraction. -/
theorem units_magnitudeBits (v : Word) :
    units (magnitudeBits v) =
      if exponentField v = 0 then fractionField v else (2 ^ 52 + fractionField v) * 2 ^ (exponentField v - 1) := by
  rw [units, exponentField_eq, fractionField_eq]

/-- The exponent 2047 begins at the encoded magnitude of infinity. -/
theorem exponentField_lt_iff {v : Word} : exponentField v < 2047 ↔ magnitudeBits v < infinityBits := by
  rw [exponentField_eq, infinityBits_eq]
  omega

/-- Below the exponent of the infinities a pattern's value is its sign times its units of 2^-1074. -/
theorem finiteValue_of_exponentField_lt {v : Word} (h : exponentField v < 2047) :
    finiteValue v = some (signFactor v.msb * (units (magnitudeBits v) : ℚ) / (unitsPerOne : ℚ)) :=
  finiteValue_eq_some.2 ⟨exponentField_lt_iff.1 h, rfl⟩

theorem finiteValue_subnormal {v : Word} (h : exponentField v = 0) :
    finiteValue v = some (signFactor v.msb * fractionField v * (2 : ℚ) ^ (-1074 : ℤ)) := by
  rw [finiteValue_of_exponentField_lt (by omega), units_magnitudeBits, if_pos h, unitsPerOne_eq, Nat.cast_pow,
    Nat.cast_ofNat, div_eq_mul_inv, zpow_neg, zpow_ofNat]

/-- The scale of a normal number: its units per significand over the units of 1 leave the unbiased exponent. -/
theorem pow_div_unitsPerOne {e : Nat} (h : 0 < e) :
    (2 : ℚ) ^ (e - 1) / (unitsPerOne : ℚ) = (2 : ℚ) ^ ((e : ℤ) - 1023) / 2 ^ 52 := by
  rw [unitsPerOne_eq, Nat.cast_pow, Nat.cast_ofNat, ← zpow_natCast, ← zpow_natCast, ← zpow_natCast,
    ← zpow_sub₀ two_ne_zero, ← zpow_sub₀ two_ne_zero]
  congr 1
  omega

theorem finiteValue_normal {v : Word} (h0 : 0 < exponentField v) (h1 : exponentField v < 2047) :
    finiteValue v =
      some (signFactor v.msb * (1 + (fractionField v : ℚ) / 2 ^ 52) * (2 : ℚ) ^ ((exponentField v : ℤ) - 1023)) := by
  rw [finiteValue_of_exponentField_lt h1, units_magnitudeBits, if_neg (by omega)]
  congr 1
  push_cast
  rw [← mul_assoc, mul_div_assoc, pow_div_unitsPerOne h0]
  ring

/-- The exponent 2047 has no finite value: infinity with a zero fraction, else a NaN. -/
theorem exponentField_eq_max {v : Word} (h : exponentField v = 2047) :
    finiteValue v = none ∧ (isNaN v = true ↔ fractionField v ≠ 0) ∧ (fractionField v = 0 → v = infinity v.msb) := by
  refine ⟨finiteValue_eq_none.2 (not_lt.1 fun hlt => ?_), by simp [isNaN, h], fun hf => ?_⟩
  · exact absurd (exponentField_lt_iff.2 hlt) (by omega)
  · exact f64_eq_infinite.1 (by rw [f64, if_pos h, if_pos hf])

theorem isNaN_eq_false_of_exponentField_lt {v : Word} (h : exponentField v < 2047) : isNaN v = false := by
  rw [isNaN, decide_eq_false h.ne, Bool.false_and]

/-! ### The conversion of an integer (00_scope R15, 42_arithmetic R166) -/

/-- A word's sign bit is the sign of its signed value. -/
theorem signFactor_msb_mul_abs_toInt (v : Word) : signFactor v.msb * |(v.toInt : ℚ)| = v.toInt := by
  rw [BitVec.msb_eq_toInt]
  rcases lt_or_ge v.toInt 0 with h | h
  · rw [decide_eq_true h, abs_of_neg (by exact_mod_cast h)]
    simp [signFactor]
  · rw [decide_eq_false h.not_gt, abs_of_nonneg (by exact_mod_cast h)]
    simp [signFactor]

/-- The fraction `i2f` rounds is the magnitude of the signed value in units of 2^-1074. -/
theorem isRounded_i2f (v : Word) : IsRounded (v.toInt : ℚ) (i2f v) := by
  have hx : |(v.toInt : ℚ)| * (((1 : Nat) : ℚ) * (unitsPerOne : ℚ)) = (v.toInt.natAbs * unitsPerOne : Nat) := by
    rw [Nat.cast_one, one_mul, Nat.cast_mul, Nat.cast_natAbs, Int.cast_abs]
  exact isRounded_withSign Nat.one_pos hx (signFactor_msb_mul_abs_toInt v)

end Sys2Proof.Machine

open Sys2Proof Sys2Proof.Machine

/-- Settles O2: the index arithmetic of each rotation modulo 64. -/
theorem rotationsMoveBits : Obligations.RotationsMoveBits := fun w _ _ hr hi =>
  ⟨getLsbD_rotl64 w hr hi, getLsbD_rotr64 w hr hi, rotl64_zero w, rotr64_rotl64 w hr⟩

/-- Settles O26: one lemma for each class of exponents. -/
theorem patternsEncodeBinary64 : Obligations.PatternsEncodeBinary64 := fun _ =>
  ⟨finiteValue_subnormal, finiteValue_normal, exponentField_eq_max, isNaN_eq_false_of_exponentField_lt⟩

/-- Settles O29: `i2f` rounds the magnitude once, under the word's own sign. -/
theorem conversionRoundsToNearestEven : Obligations.ConversionRoundsToNearestEven := isRounded_i2f
end

section
/-!
PROOFS. The session as a whole: what an instruction and a host transaction can change, said once each, and from that the
frames (10_state R23, R28, R45), the transitions of the run state (R29), the order of the traffic (R45) and the
invariant of a session (R29 to R31).
-/

namespace Sys2Proof.Machine

/-! ### What an instruction can change -/

/-- The request an instruction makes of the host; IN_S makes none when its base is refused (41_system_io R145). -/
def inputRequest : Instr → Option InputRequest
  | .inN => some .num
  | .inS a =>
    match checkVariableZone (address a) with
    | .ok () => some .str
    | .error _ => none
  | _ => none

/-- The registers an instruction may write (10_state R23). -/
def writes : Instr → List Reg
  | .halt => []
  | .outN | .outS _ | .st _ _ | .jmp _ | .jgr _ | .jge _ | .jeq _ | .jne _ | .jle _ | .jls _ => [.ip]
  | .inN | .inS _ | .add _ _ | .sub _ _ | .mul _ _ | .div _ _ | .con _ => [.ip, .acc]
  | .push _ => [.ip, .sp]
  | .pop fr => .ip :: .sp :: (Reg.ofIndex fr.toNat).toList
  | .ld fr _ => .ip :: (Reg.ofIndex fr.toNat).toList

/-- The state once an instruction has taken its input: the next answer consumed, or no request made. -/
inductive Consumes (s : State) : Instr → State → Prop
  | nothing {i : Instr} (hi : inputRequest i = none) : Consumes s i s
  | num {a : NumAnswer} {rest : List NumAnswer} (ha : s.numAnswers = a :: rest) :
    Consumes s .inN (s.consumeNum a rest)
  | str {b : AddrField} {a : StrAnswer} {rest : List StrAnswer} (ha : s.strAnswers = a :: rest) :
    Consumes s (.inS b) (s.consumeStr a rest)

/-- The five ways a handler ends. -/
inductive Effect (s : State) : Instr → State → Prop
  | complete {i : Instr} {u : State} {regs : RegFile} {mem : Memory} (hu : Consumes s i u)
    (hregs : ∀ q, q ∉ writes i → regs.read q = s.read q)
    (hmem : Memory.wf s.mem = true → Memory.wf mem = true) : Effect s i { u with regs := regs, mem := mem }
  | fault {i : Instr} {u : State} (hu : Consumes s i u) (f : FaultRecord) : Effect s i (u.raise f)
  | await {i : Instr} {r : InputRequest} (hi : inputRequest i = some r) : Effect s i (s.await r)
  | emit {i : Instr} {e : OutputEvent} {regs : RegFile} (hi : i = .outN ∨ ∃ a, i = .outS a)
    (hregs : ∀ q, q ∉ writes i → regs.read q = s.read q) : Effect s i { s.emit e with regs := regs }
  | halt : Effect s .halt s.enterHalted

theorem inputRequest_inS_ok {a : AddrField} (h : 40001 ≤ a.toNat) (h' : a.toNat ≤ 50000) :
    inputRequest (.inS a) = some .str := by
  simp [inputRequest, checkVariableZone_ok (a := address a) (by simpa using h) (by simpa using h')]

theorem inputRequest_inS_error {a : AddrField} (h : a.toNat < 40001 ∨ 50000 < a.toNat) :
    inputRequest (.inS a) = none := by
  simp [inputRequest, checkVariableZone_error (a := address a) (by simpa using h)]

theorem inputRequest_eq_num {i : Instr} : inputRequest i = some .num ↔ i = .inN := by
  cases i
  case inS a => simp only [inputRequest]; split <;> simp
  all_goals simp [inputRequest]

theorem inputRequest_eq_str {i : Instr} :
    inputRequest i = some .str ↔ ∃ a, i = .inS a ∧ checkVariableZone (address a) = .ok () := by
  cases i
  case inS a => simp only [inputRequest]; split <;> simp [*]
  all_goals simp [inputRequest]

section Handlers

variable {s t u : State} {i : Instr} {fr : FullSel} {a : AddrField}

/-- A handler that completes: it took its input, then changed registers it may write, and memory canonically. -/
theorem Effect.of_complete (hu : Consumes s i u) (ht : t = { u with regs := t.regs, mem := t.mem })
    (hregs : ∀ q, q ∉ writes i → t.read q = s.read q)
    (hmem : Memory.wf s.mem = true → Memory.wf t.mem = true) : Effect s i t :=
  ht ▸ .complete hu hregs hmem

theorem Effect.of_raise (hi : inputRequest i = none) (f : FaultRecord) : Effect s i (s.raise f) :=
  .fault (.nothing hi) f

/-- A value moved into a register changes registers alone. -/
theorem State.moveTo_eq_regs_mem (s : State) (d : Reg) (v : Word) :
    s.moveTo d v = { s with regs := (s.moveTo d v).regs, mem := (s.moveTo d v).mem } := by
  unfold State.moveTo
  split <;> rfl

theorem effect_arith {f : Word → Word → Word} {na nb : NarrowSel} (hi : inputRequest i = none)
    (hw : writes i = [.ip, .acc]) (h : s.finish (s.arith f na nb) = .next t) : Effect s i t := by
  obtain ⟨ra, rb, -, -, rfl⟩ | ⟨-, rfl⟩ | ⟨-, -, rfl⟩ := arith_cases h
  · exact .of_complete (.nothing hi) rfl (by simp +contextual [hw]) id
  all_goals exact .of_raise hi _

theorem effect_jumpIf (c : Word → Bool) (hi : inputRequest i = none) (hw : writes i = [.ip]) :
    Effect s i (s.jumpIf c a) := by
  obtain ⟨-, e⟩ | ⟨-, e⟩ := s.jumpIf_cases c a <;> rw [e]
  all_goals exact .of_complete (.nothing hi) rfl (by simp +contextual [hw]) id

theorem effect_con (h : execCon fr s = .next t) : Effect s (.con fr) t := by
  obtain ⟨r, -, rfl⟩ | ⟨-, rfl⟩ := execCon_cases h
  · exact .of_complete (.nothing rfl) rfl (by simp +contextual [writes]) id
  · exact .of_raise rfl _

theorem effect_push (h : execPush fr s = .next t) : Effect s (.push fr) t := by
  obtain ⟨r, -, -, hsp, rfl⟩ | ⟨-, rfl⟩ | ⟨-, -, rfl⟩ | ⟨-, -, rfl⟩ := execPush_cases h
  · refine .of_complete (.nothing rfl) rfl (fun q hq => ?_) fun hm => Memory.wf_write _ hm (by omega)
    simp only [writes, List.mem_cons, List.not_mem_nil, or_false, not_or] at hq
    rw [State.read_advance_ne _ hq.1, State.read_write_ne _ _ hq.2]
    rfl
  all_goals exact .of_raise rfl _

theorem effect_pop (h : execPop fr s = .next t) : Effect s (.pop fr) t := by
  obtain ⟨r, hr, -, -, rfl⟩ | ⟨-, rfl⟩ | ⟨-, -, rfl⟩ | ⟨-, -, rfl⟩ := execPop_cases h
  · refine .of_complete (.nothing rfl) (State.moveTo_eq_regs_mem _ r _) (fun q hq => ?_) (by simp)
    simp only [writes, hr, Option.toList_some, List.mem_cons, List.not_mem_nil, or_false, not_or] at hq
    obtain ⟨hip, hsp, hqr⟩ := hq
    rw [State.read_moveTo_ne _ _ hqr hip, State.read_write_ne _ _ hsp]
  all_goals exact .of_raise rfl _

theorem effect_ld (h : execLd fr a s = .next t) : Effect s (.ld fr a) t := by
  obtain ⟨r, hr, -, -, rfl⟩ | ⟨-, rfl⟩ | ⟨-, -, rfl⟩ := execLd_cases h
  · refine .of_complete (.nothing rfl) (State.moveTo_eq_regs_mem _ r _) (fun q hq => ?_) (by simp)
    simp only [writes, hr, Option.toList_some, List.mem_cons, List.not_mem_nil, or_false, not_or] at hq
    exact State.read_moveTo_ne _ _ hq.2 hq.1
  all_goals exact .of_raise rfl _

theorem effect_st (h : execSt fr a s = .next t) : Effect s (.st fr a) t := by
  obtain ⟨r, -, -, ha, rfl⟩ | ⟨-, rfl⟩ | ⟨-, -, rfl⟩ := execSt_cases h
  · refine .of_complete (.nothing rfl) rfl (fun q hq => ?_) fun hm => Memory.wf_write _ hm ha
    exact State.read_advance_ne _ (by simpa [writes] using hq)
  all_goals exact .of_raise rfl _

theorem effect_inN (h : execInN s = .next t) : Effect s .inN t := by
  obtain ⟨-, rfl⟩ | ⟨v, rest, ha, rfl⟩ | ⟨rest, ha, rfl⟩ | ⟨rest, ha, rfl⟩ := execInN_cases h
  · exact .await rfl
  · exact .of_complete (.num ha) rfl (by simp +contextual [writes]) id
  all_goals exact .fault (.num ha) _

theorem effect_inS (h : execInS a s = .next t) : Effect s (.inS a) t := by
  obtain ⟨ha, rfl⟩ | ⟨hlo, hhi, h⟩ := execInS_cases h
  · exact .of_raise (inputRequest_inS_error ha) _
  · obtain ⟨-, rfl⟩ | ⟨rest, hs, rfl⟩ | ⟨rest, hs, rfl⟩ | ⟨cs, rest, hs, -, rfl⟩ | ⟨cs, rest, hs, hfit, rfl⟩ := h
    · exact .await (inputRequest_inS_ok hlo hhi)
    · exact .fault (.str hs) _
    · exact .fault (.str hs) _
    · exact .fault (.str hs) _
    · refine .of_complete (.str hs) rfl (fun q hq => ?_) fun hm => Memory.wf_writeAll cs hm (by omega)
      simp only [writes, List.mem_cons, List.not_mem_nil, or_false, not_or] at hq
      rw [State.read_advance_ne _ hq.1, State.read_write_ne _ _ hq.2]
      rfl

theorem effect_outS (h : execOutS a s = .next t) : Effect s (.outS a) t := by
  obtain ⟨-, rfl⟩ | ⟨-, -, -, rfl⟩ | ⟨-, -, -, rfl⟩ := execOutS_cases h
  · exact .of_raise rfl _
  · exact .of_raise rfl _
  · exact .emit (.inr ⟨a, rfl⟩) (by simp +contextual [writes, State.read])

/-- Every handler ends in one of the five ways. -/
theorem exec_effect (h : exec i s = .next t) : Effect s i t := by
  cases i with
  | halt => obtain rfl := next_inj.1 h; exact .halt
  | inN => exact effect_inN h
  | outN => obtain rfl := next_inj.1 h; exact .emit (.inl rfl) (by simp +contextual [writes, State.read])
  | inS a => exact effect_inS h
  | outS a => exact effect_outS h
  | add na nb => exact effect_arith rfl rfl h
  | sub na nb => exact effect_arith rfl rfl h
  | mul na nb => exact effect_arith rfl rfl h
  | div na nb => exact effect_arith rfl rfl h
  | con fr => exact effect_con h
  | push fr => exact effect_push h
  | pop fr => exact effect_pop h
  | ld fr a => exact effect_ld h
  | st fr a => exact effect_st h
  | jmp a => obtain rfl := next_inj.1 h; exact .of_complete (.nothing rfl) rfl (by simp +contextual [writes]) id
  | jgr a => obtain rfl := next_inj.1 h; exact effect_jumpIf condGr rfl rfl
  | jge a => obtain rfl := next_inj.1 h; exact effect_jumpIf condGe rfl rfl
  | jeq a => obtain rfl := next_inj.1 h; exact effect_jumpIf condEq rfl rfl
  | jne a => obtain rfl := next_inj.1 h; exact effect_jumpIf condNe rfl rfl
  | jle a => obtain rfl := next_inj.1 h; exact effect_jumpIf condLe rfl rfl
  | jls a => obtain rfl := next_inj.1 h; exact effect_jumpIf condLs rfl rfl

end Handlers

/-! ### Frames -/

section Frames

variable {s t u : State} {i : Instr}

/-- Consuming input changes the wait, the answers and the record of the input alone. -/
theorem Consumes.eq_ports (h : Consumes s i u) :
    u = { s with
      inputWait := u.inputWait, numAnswers := u.numAnswers, strAnswers := u.strAnswers, consumed := u.consumed } := by
  cases h <;> rfl

theorem Consumes.runState_eq (h : Consumes s i u) : u.runState = s.runState := by rw [h.eq_ports]

theorem Consumes.faultRecord_eq (h : Consumes s i u) : u.faultRecord = s.faultRecord := by rw [h.eq_ports]

theorem Consumes.output_eq (h : Consumes s i u) : u.output = s.output := by rw [h.eq_ports]

theorem Consumes.discarded_eq (h : Consumes s i u) : u.discarded = s.discarded := by rw [h.eq_ports]

theorem Consumes.mem_eq (h : Consumes s i u) : u.mem = s.mem := by rw [h.eq_ports]

theorem Consumes.read_eq (h : Consumes s i u) (q : Reg) : u.read q = s.read q := by rw [h.eq_ports]; rfl

theorem Consumes.numAnswers_eq (h : Consumes s i u) (hi : i ≠ .inN) : u.numAnswers = s.numAnswers := by
  cases h with
  | nothing | str => rfl
  | num => exact absurd rfl hi

theorem Consumes.strAnswers_eq (h : Consumes s i u) (hi : ∀ a, i ≠ .inS a) : u.strAnswers = s.strAnswers := by
  cases h with
  | nothing | num => rfl
  | str => exact absurd rfl (hi _)

theorem Consumes.input_eq (h : Consumes s i u) (hn : i ≠ .inN) (hs : ∀ a, i ≠ .inS a) :
    u.consumed = s.consumed ∧ u.inputWait = s.inputWait := by
  cases h with
  | nothing => exact ⟨rfl, rfl⟩
  | num => exact absurd rfl hn
  | str => exact absurd rfl (hs _)

/-- A register outside `writes` keeps its value, however the handler ends. -/
theorem Effect.read_eq (h : Effect s i t) {q : Reg} (hq : q ∉ writes i) : t.read q = s.read q := by
  cases h with
  | complete hu hregs hmem => exact hregs q hq
  | fault hu f => exact hu.read_eq q
  | await | halt => rfl
  | emit hi hregs => exact hregs q hq

theorem Effect.discarded_eq (h : Effect s i t) : t.discarded = s.discarded := by
  cases h with
  | complete hu | fault hu => exact hu.discarded_eq
  | await | emit | halt => rfl

theorem Effect.output_eq (h : Effect s i t) (hn : i ≠ .outN) (hs : ∀ a, i ≠ .outS a) : t.output = s.output := by
  cases h with
  | complete hu | fault hu => exact hu.output_eq
  | await | halt => rfl
  | emit hi => obtain rfl | ⟨a, rfl⟩ := hi <;> simp_all

theorem Effect.numAnswers_eq (h : Effect s i t) (hi : i ≠ .inN) : t.numAnswers = s.numAnswers := by
  cases h with
  | complete hu | fault hu => exact hu.numAnswers_eq hi
  | await | emit | halt => rfl

theorem Effect.strAnswers_eq (h : Effect s i t) (hi : ∀ a, i ≠ .inS a) : t.strAnswers = s.strAnswers := by
  cases h with
  | complete hu | fault hu => exact hu.strAnswers_eq hi
  | await | emit | halt => rfl

theorem Effect.input_eq (h : Effect s i t) (hn : i ≠ .inN) (hs : ∀ a, i ≠ .inS a) :
    t.consumed = s.consumed ∧ t.inputWait = s.inputWait := by
  cases h with
  | complete hu | fault hu => exact hu.input_eq hn hs
  | @await _ r hi =>
    cases r with
    | num => exact absurd (inputRequest_eq_num.1 hi) hn
    | str => obtain ⟨a, rfl, -⟩ := inputRequest_eq_str.1 hi; exact absurd rfl (hs a)
  | emit | halt => exact ⟨rfl, rfl⟩

/-- The run state and the fault record stay, or HALT halts, or a fault is recorded before anything was emitted. -/
theorem Effect.engine_cases (h : Effect s i t) :
    (t.runState = s.runState ∧ t.faultRecord = s.faultRecord) ∨
    (i = .halt ∧ t.runState = some .halted ∧ t.faultRecord = s.faultRecord) ∨
    (t.runState = some .faulted ∧ t.faultRecord.isSome = true ∧ t.output = s.output) := by
  cases h with
  | complete hu => exact .inl ⟨hu.runState_eq, hu.faultRecord_eq⟩
  | fault hu => exact .inr (.inr ⟨rfl, rfl, hu.output_eq⟩)
  | await | emit => exact .inl ⟨rfl, rfl⟩
  | halt => exact .inr (.inl ⟨rfl, rfl, rfl⟩)

/-- A handler keeps memory canonical. -/
theorem Effect.wf_mem (h : Effect s i t) (hm : Memory.wf s.mem = true) : Memory.wf t.mem = true := by
  cases h with
  | complete hu hregs hmem => exact hmem hm
  | fault hu => exact (congrArg Memory.wf hu.mem_eq).trans hm
  | await | emit | halt => exact hm

end Frames

/-! ### What a host transaction can change (10_state R40) -/

/-- The transactions that are not refused: when each is allowed, and the state after it. -/
inductive HostEffect (s : State) : HostTransaction → State → Prop
  | load {p : List Word} (hr : s.runState = none) (hp : p.length ≤ 30001) :
    HostEffect s (.load p) { s.write .ip 0 with mem := Memory.writeAll s.mem 0 p, runState := some .ready }
  | presetReg {r : Reg} {v : Word} (hr : s.runState = some .ready) (hip : r ≠ .ip) :
    HostEffect s (.presetReg r v) (s.write r v)
  | presetMem {a : Nat} {v : Word} (hr : s.runState = some .ready) (ha : a ≤ 50000) :
    HostEffect s (.presetMem a v) { s with mem := Memory.write s.mem a v }
  | run (hr : s.runState = some .ready) : HostEffect s .run { s with runState := some .running }
  | answerNum {a : NumAnswer} (hr : s.terminal = false) :
    HostEffect s (.answerNum a) { s with numAnswers := s.numAnswers ++ [a] }
  | answerStr {a : StrAnswer} (hr : s.terminal = false) :
    HostEffect s (.answerStr a) { s with strAnswers := s.strAnswers ++ [a] }
  | discard : HostEffect s .discard { s with discarded := true }

section Transactions

variable {s t u : State} {c : Prop} [Decidable c]

/-- A transaction allowed under a condition met it, if it answered a next state. -/
theorem allowed_next (h : (if c then .next u else .refused .hostTransactionNotAllowed : Result) = .next t) :
    c ∧ u = t := by
  split at h
  · exact ⟨‹c›, next_inj.1 h⟩
  · cases h

/-- A transaction refused under a condition did not meet it, if it answered a next state. -/
theorem not_refused_next {q : Refusal} {x : Result} (h : (if c then .refused q else x) = .next t) :
    ¬ c ∧ x = .next t := by
  split at h
  · cases h
  · exact ⟨‹¬ c›, h⟩

theorem hostLoad_effect {p : List Word} (h : hostLoad p s = .next t) : HostEffect s (.load p) t := by
  obtain ⟨hr, h⟩ := not_refused_next h
  obtain ⟨hp, h⟩ := not_refused_next h
  obtain rfl := next_inj.1 h
  exact .load (not_not.1 hr) (not_lt.1 hp)

theorem hostAnswerNum_effect {a : NumAnswer} (h : hostAnswerNum a s = .next t) : HostEffect s (.answerNum a) t := by
  obtain ⟨hr, h⟩ := not_refused_next h
  obtain rfl := next_inj.1 h
  exact .answerNum (by simpa using hr)

theorem hostAnswerStr_effect {a : StrAnswer} (h : hostAnswerStr a s = .next t) : HostEffect s (.answerStr a) t := by
  obtain ⟨hr, h⟩ := not_refused_next h
  obtain rfl := next_inj.1 h
  exact .answerStr (by simpa using hr)

theorem hostTransact_effect {h : HostTransaction} (ht : hostTransact h s = .next t) : HostEffect s h t := by
  obtain ⟨-, ht⟩ := not_refused_next ht
  cases h with
  | load p => exact hostLoad_effect ht
  | presetReg r v => obtain ⟨⟨hr, hip⟩, rfl⟩ := allowed_next ht; exact .presetReg hr hip
  | presetMem a v => obtain ⟨⟨hr, ha⟩, rfl⟩ := allowed_next ht; exact .presetMem hr ha
  | run => obtain ⟨hr, rfl⟩ := allowed_next ht; exact .run hr
  | answerNum a => exact hostAnswerNum_effect ht
  | answerStr a => exact hostAnswerStr_effect ht
  | discard => obtain rfl := next_inj.1 ht; exact .discard

end Transactions

/-! ### The run state (10_state R29) -/

/-- A step of a running session leaves it Running, Halted or Faulted. -/
theorem Effect.runState_of_running {s t : State} {i : Instr} (h : Effect s i t) (hr : s.runState = some .running) :
    t.runState = some .running ∨ t.runState = some .halted ∨ t.runState = some .faulted := by
  obtain ⟨e, -⟩ | ⟨-, e, -⟩ | ⟨e, -, -⟩ := h.engine_cases
  · exact .inl (e.trans hr)
  · exact .inr (.inl e)
  · exact .inr (.inr e)

theorem step_runState {s t : State} (h : step s = .next t) :
    (s.runState = some .running ∧
      (t.runState = some .running ∨ t.runState = some .halted ∨ t.runState = some .faulted)) ∨
    (s.runState ≠ some .running ∧ t = s) := by
  obtain ⟨-, ⟨hr, rfl⟩ | ⟨hr, i, -, hx⟩ | ⟨hr, f, -, rfl⟩⟩ := step_cases h
  · exact .inr ⟨hr, rfl⟩
  · exact .inl ⟨hr, (exec_effect hx).runState_of_running hr⟩
  · exact .inl ⟨hr, .inr (.inr rfl)⟩

theorem hostTransact_runState {h : HostTransaction} {s t : State} (ht : hostTransact h s = .next t) :
    t.runState = s.runState ∨
    (h = .run ∧ s.runState = some .ready ∧ t.runState = some .running) ∨
    ((∃ p, h = .load p) ∧ s.runState = none ∧ t.runState = some .ready) := by
  cases hostTransact_effect ht with
  | load hr => exact .inr (.inr ⟨⟨_, rfl⟩, hr, rfl⟩)
  | run hr => exact .inr (.inl ⟨rfl, hr, rfl⟩)
  | presetReg | presetMem | answerNum | answerStr | discard => exact .inl rfl

/-! ### Traffic (10_state R45) -/

/-- At most `n` events lead from `s` to `t`: those consumed are the front of the answers, in order, and both records
only grow. -/
def Traffic (n : Nat) (s t : State) : Prop :=
  ∃ (ins : List InputEvent) (outs : List OutputEvent),
    t.consumed = s.consumed ++ ins ∧ t.output = s.output ++ outs ∧ ins.length + outs.length ≤ n ∧
    s.numAnswers = ins.filterMap InputEvent.numAnswer ++ t.numAnswers ∧
    s.strAnswers = ins.filterMap InputEvent.strAnswer ++ t.strAnswers

theorem Traffic.refl (n : Nat) (s : State) : Traffic n s s :=
  ⟨[], [], by simp⟩

theorem Traffic.trans {m n : Nat} {s t u : State} (h : Traffic m s t) (h' : Traffic n t u) :
    Traffic (m + n) s u := by
  obtain ⟨ins, outs, hc, ho, hl, hn, hs⟩ := h
  obtain ⟨ins', outs', hc', ho', hl', hn', hs'⟩ := h'
  refine ⟨ins ++ ins', outs ++ outs', by simp [hc', hc], by simp [ho', ho], ?_, by simp [hn, hn'], by simp [hs, hs']⟩
  simp only [List.length_append]
  omega

theorem Consumes.traffic {s u : State} {i : Instr} (h : Consumes s i u) : Traffic 1 s u := by
  cases h with
  | nothing => exact .refl 1 s
  | @num a rest ha => exact ⟨[.num a], [], by simp [ha, InputEvent.numAnswer, InputEvent.strAnswer]⟩
  | @str _ a rest ha => exact ⟨[.str a], [], by simp [ha, InputEvent.numAnswer, InputEvent.strAnswer]⟩

theorem Effect.traffic {s t : State} {i : Instr} (h : Effect s i t) : Traffic 1 s t := by
  cases h with
  | complete hu | fault hu => exact hu.traffic
  | await | halt => exact Traffic.refl 1 s
  | @emit _ e => exact ⟨[], [e], by simp⟩

theorem step_traffic {s t : State} (h : step s = .next t) : Traffic 1 s t := by
  obtain ⟨-, ⟨-, rfl⟩ | ⟨-, i, -, hx⟩ | ⟨-, f, -, rfl⟩⟩ := step_cases h
  · exact .refl 1 _
  · exact (exec_effect hx).traffic
  · exact Traffic.refl 1 s

theorem run_traffic {k : Nat} {s t : State} (h : Host.Core.run core k s = .next t) : Traffic k s t := by
  induction k generalizing s with
  | zero => obtain rfl := next_inj.1 h; exact .refl 0 _
  | succ k ih =>
    obtain ⟨u, hu, hk⟩ := run_succ_next h
    exact Nat.add_comm 1 k ▸ (step_traffic hu).trans (ih hk)

/-! ### The invariant of a session -/

/-- The invariant with its four parts named. -/
structure SessionInv (s : State) : Prop where
  canonical : Memory.wf s.mem = true
  record : s.faultRecord.isSome = true ↔ s.runState = some .faulted
  wait : ∀ r, s.inputWait = some r →
    s.runState = some .running ∧ ∃ i, s.nextInstr = .ok i ∧ inputRequest i = some r
  start : s.runState = none ∨ s.runState = some .ready →
    s.read .ip = 0 ∧ s.consumed = [] ∧ s.output = []

theorem State.recordAgrees_iff (s : State) :
    s.recordAgrees = true ↔ (s.faultRecord.isSome = true ↔ s.runState = some .faulted) := by
  rw [State.recordAgrees, beq_iff_eq, Bool.eq_iff_iff, decide_eq_true_iff]

/-- A pending wait is for the request of the instruction at `ip`. -/
theorem State.waitAgrees_iff (s : State) :
    s.waitAgrees = true ↔ ∀ r, s.inputWait = some r →
      s.runState = some .running ∧ ∃ i, s.nextInstr = .ok i ∧ inputRequest i = some r := by
  unfold State.waitAgrees
  split
  · simp [*]
  · simp [*, inputRequest_eq_num]
  · simp only [*, Option.some.injEq, forall_eq', inputRequest_eq_str, Bool.and_eq_true, decide_eq_true_iff]
    refine and_congr_right fun _ => ?_
    split <;> simp_all

theorem State.startAgrees_iff (s : State) :
    s.startAgrees = true ↔ (s.runState = none ∨ s.runState = some .ready →
      s.read .ip = 0 ∧ s.consumed = [] ∧ s.output = []) := by
  simp [State.startAgrees, State.started, imp_iff_not_or, and_assoc]

theorem State.inv_iff (s : State) : s.inv = true ↔ SessionInv s := by
  rw [State.inv, Bool.and_eq_true, Bool.and_eq_true, Bool.and_eq_true, s.recordAgrees_iff, s.waitAgrees_iff,
    s.startAgrees_iff]
  exact ⟨fun ⟨⟨⟨hm, hr⟩, hw⟩, hs⟩ => ⟨hm, hr, hw, hs⟩, fun ⟨hm, hr, hw, hs⟩ => ⟨⟨⟨hm, hr⟩, hw⟩, hs⟩⟩

section Invariant

variable {s t u : State} {i : Instr}

/-- Outside Running no wait is pending. -/
theorem SessionInv.inputWait_of_not_running (hs : SessionInv s) (hr : s.runState ≠ some .running) :
    s.inputWait = none :=
  Option.eq_none_iff_forall_ne_some.2 fun r hw => hr (hs.wait r hw).1

/-- Before an instruction that makes no request no wait is pending. -/
theorem SessionInv.inputWait_of_no_request (hs : SessionInv s)
    (hn : ∀ j, s.nextInstr = .ok j → inputRequest j = none) : s.inputWait = none :=
  Option.eq_none_iff_forall_ne_some.2 fun r hw => by
    obtain ⟨-, j, hj, hreq⟩ := hs.wait r hw
    exact nomatch (hn j hj).symm.trans hreq

theorem SessionInv.inputWait_of_consumes (hs : SessionInv s) (hn : s.nextInstr = .ok i) (hu : Consumes s i u) :
    u.inputWait = none := by
  cases hu with
  | nothing hi => exact hs.inputWait_of_no_request fun j hj => by cases hn.symm.trans hj; exact hi
  | num | str => rfl

/-- After a handler ran, a pending wait is the one it has just entered. -/
theorem SessionInv.wait_of_effect (hs : SessionInv s) (hr : s.runState = some .running) (hn : s.nextInstr = .ok i)
    (h : Effect s i t) (r : InputRequest) (hw : t.inputWait = some r) :
    t.runState = some .running ∧ ∃ j, t.nextInstr = .ok j ∧ inputRequest j = some r := by
  cases h with
  | complete hu | fault hu => exact nomatch (hs.inputWait_of_consumes hn hu).symm.trans hw
  | await hi => cases hw; exact ⟨hr, i, hn, hi⟩
  | emit hi =>
    have hs' := hs.inputWait_of_consumes hn (.nothing (by obtain rfl | ⟨a, rfl⟩ := hi <;> rfl))
    exact nomatch hs'.symm.trans hw
  | halt => exact nomatch (hs.inputWait_of_consumes hn (.nothing rfl)).symm.trans hw

theorem SessionInv.record_of_effect (hs : SessionInv s) (hr : s.runState = some .running) (h : Effect s i t) :
    t.faultRecord.isSome = true ↔ t.runState = some .faulted := by
  have hnone : ¬ s.faultRecord.isSome = true := by rw [hs.record, hr]; decide
  obtain ⟨hrun, hrec⟩ | ⟨-, hrun, hrec⟩ | ⟨hrun, hrec, -⟩ := h.engine_cases
  · rw [hrun, hrec]; exact hs.record
  · rw [hrun, hrec]; exact iff_of_false hnone (by decide)
  · exact iff_of_true hrec hrun

/-- A session that has started says nothing of the time before the run. -/
theorem start_of_started
    (h : s.runState = some .running ∨ s.runState = some .halted ∨ s.runState = some .faulted) :
    s.runState = none ∨ s.runState = some .ready → s.read .ip = 0 ∧ s.consumed = [] ∧ s.output = [] := by
  obtain e | e | e := h <;> simp [e]

theorem SessionInv.of_effect (hs : SessionInv s) (hr : s.runState = some .running) (hn : s.nextInstr = .ok i)
    (h : Effect s i t) : SessionInv t where
  canonical := h.wf_mem hs.canonical
  record := hs.record_of_effect hr h
  wait := hs.wait_of_effect hr hn h
  start := start_of_started (h.runState_of_running hr)

/-- The fault of a fetch or of the dispatch keeps the invariant: no wait is pending where no instruction stands. -/
theorem SessionInv.of_nextInstr_error {f : FaultRecord} (hs : SessionInv s) (hn : s.nextInstr = .error f) :
    SessionInv (s.raise f) where
  canonical := hs.canonical
  record := iff_of_true rfl rfl
  wait _ hw := nomatch (hs.inputWait_of_no_request fun _ hj => nomatch hn.symm.trans hj).symm.trans hw
  start := start_of_started (.inr (.inr rfl))

theorem SessionInv.step (hs : SessionInv s) (h : step s = .next t) : SessionInv t := by
  obtain ⟨-, ⟨-, rfl⟩ | ⟨hr, i, hn, hx⟩ | ⟨-, f, hn, rfl⟩⟩ := step_cases h
  · exact hs
  · exact hs.of_effect hr hn (exec_effect hx)
  · exact hs.of_nextInstr_error hn

/-- Before the run no wait is pending and the fault record is empty, and a transaction that leaves both alone keeps it
so. -/
theorem SessionInv.of_before_run (hs : SessionInv s) (hr : s.runState = none ∨ s.runState = some .ready)
    (hm : Memory.wf t.mem = true) (hf : t.faultRecord = s.faultRecord) (hw : t.inputWait = s.inputWait)
    (hr' : t.runState ≠ some .faulted)
    (hst : t.runState = none ∨ t.runState = some .ready → t.read .ip = 0 ∧ t.consumed = [] ∧ t.output = []) :
    SessionInv t where
  canonical := hm
  record := by
    have hs' : s.runState ≠ some .faulted := by obtain e | e := hr <;> simp [e]
    rw [hf]
    exact iff_of_false (mt hs.record.1 hs') hr'
  wait r h := by
    have hs' : s.runState ≠ some .running := by obtain e | e := hr <;> simp [e]
    exact nomatch (hs.inputWait_of_not_running hs').symm.trans (hw.symm.trans h)
  start := hst

theorem SessionInv.hostTransact {h : HostTransaction} (hs : SessionInv s) (ht : hostTransact h s = .next t) :
    SessionInv t := by
  cases hostTransact_effect ht with
  | @load p hr hp =>
    obtain ⟨-, hc, ho⟩ := hs.start (.inl hr)
    have hm := Memory.wf_writeAll (a := 0) p hs.canonical (by omega)
    exact hs.of_before_run (.inl hr) hm rfl rfl nofun fun _ => ⟨rfl, hc, ho⟩
  | presetReg hr hip =>
    obtain ⟨h0, hc, ho⟩ := hs.start (.inr hr)
    exact hs.of_before_run (.inr hr) hs.canonical rfl rfl (by simp [hr])
      fun _ => ⟨(s.read_write_ne _ hip.symm).trans h0, hc, ho⟩
  | presetMem hr ha =>
    exact hs.of_before_run (.inr hr) (Memory.wf_write _ hs.canonical ha) rfl rfl (by simp [hr]) hs.start
  | run hr => exact hs.of_before_run (.inr hr) hs.canonical rfl rfl nofun (start_of_started (.inl rfl))
  | answerNum | answerStr | discard => exact ⟨hs.canonical, hs.record, hs.wait, hs.start⟩

end Invariant

end Sys2Proof.Machine

open Sys2Proof Sys2Proof.Machine

/-- Settles O56: the invariant of a running session by the way its handler ends. -/
theorem everyStepKeepsTheSessionInvariant : Obligations.EveryStepKeepsTheSessionInvariant := fun s t hs h =>
  t.inv_iff.2 ((s.inv_iff.1 hs).step h)

/-- Settles O59: the traffic of one step, and an induction on the number of steps. -/
theorem trafficIsAnOrderedSequence : Obligations.TrafficIsAnOrderedSequence := fun _ _ _ => run_traffic

/-- Settles O13: by what a step and a host transaction can change. -/
theorem onlyRunStateTransitions : Obligations.OnlyRunStateTransitions :=
  ⟨fun _ _ => step_runState, fun _ _ _ => hostTransact_runState⟩

/-- Settles O42: the registers the statement leaves out are those of `writes`. -/
theorem registerFrame : Obligations.RegisterFrame := by
  intro i s t h q hq
  refine (exec_effect h).read_eq ?_
  cases i with
  | halt => exact List.not_mem_nil
  | pop fr => simpa [writes, eq_comm] using hq
  | ld fr a => simpa [writes, eq_comm] using hq
  | _ => simpa [writes] using hq

/-- Settles O44: port by port. -/
theorem portAndEngineFrame : Obligations.PortAndEngineFrame := fun _ _ _ h =>
  have he := exec_effect h
  ⟨he.discarded_eq, he.output_eq, he.numAnswers_eq, he.strAnswers_eq, he.input_eq, he.engine_cases⟩

/-- Settles O57: by the transactions that are not refused. -/
theorem hostTransactionsKeepTheSessionInvariant : Obligations.HostTransactionsKeepTheSessionInvariant :=
  fun _ s t hs ht => t.inv_iff.2 ((s.inv_iff.1 hs).hostTransact ht)

/-- Settles O50: a read after a write, of the same register and of another. -/
theorem registersAreStorageCells : Obligations.RegistersAreStorageCells := by
  refine fun s r q v => ⟨?_, rfl⟩
  split
  · subst q; exact s.read_write_same r v
  · exact s.read_write_ne v ‹_›

/-- Settles O51: register by register; the load by what a host transaction can change. -/
theorem resetValues : Obligations.ResetValues := by
  refine ⟨fun r => ?_, Memory.read_nil, rfl, rfl, rfl, fun p t ht => ?_⟩
  · cases r <;> rfl
  · cases hostTransact_effect ht; rfl

/-- Settles O55: each part of the invariant is evaluated at reset. -/
theorem resetMeetsTheSessionInvariant : Obligations.ResetMeetsTheSessionInvariant := rfl
end

section
/-!
PROOFS. Memory (20_memory): what an instruction stores, said once; from that the frame of memory (R51, R57) and, over
any run, the code zone (R64). The two primitives and the checks that come before them (R54).
-/

namespace Sys2Proof.Machine

/-! ### What an instruction stores (20_memory R51, R57) -/

/-- The memory after an instruction: as it was, or with the store of PUSH, ST or IN_S, each in its own zone. -/
inductive Stores (s : State) : Instr → Memory → Prop
  | nothing {i : Instr} : Stores s i s.mem
  | push {fr : FullSel} {v : Word} (hlo : 30001 ≤ (s.read .sp).toNat) :
    Stores s (.push fr) (Memory.write s.mem (s.read .sp).toNat v)
  | st {fr : FullSel} {a : AddrField} {v : Word} (hlo : 40001 ≤ a.toNat) :
    Stores s (.st fr a) (Memory.write s.mem a.toNat v)
  | inS {a : AddrField} {cs : List Word} {rest : List StrAnswer} (hlo : 40001 ≤ a.toNat)
    (hs : s.strAnswers = .chars cs :: rest) : Stores s (.inS a) (Memory.writeAll s.mem a.toNat cs)

section Handlers

variable {s t : State} {i : Instr} {fr : FullSel} {a : AddrField}

theorem Stores.of_mem_eq (h : t.mem = s.mem) : Stores s i t.mem := h ▸ .nothing

theorem arith_mem {f : Word → Word → Word} {na nb : NarrowSel} (h : s.finish (s.arith f na nb) = .next t) :
    t.mem = s.mem := by
  obtain ⟨_, _, -, -, rfl⟩ | ⟨-, rfl⟩ | ⟨-, -, rfl⟩ := arith_cases h <;> rfl

theorem execCon_mem (h : execCon fr s = .next t) : t.mem = s.mem := by
  obtain ⟨_, -, rfl⟩ | ⟨-, rfl⟩ := execCon_cases h <;> rfl

theorem execPop_mem (h : execPop fr s = .next t) : t.mem = s.mem := by
  obtain ⟨_, -, -, -, rfl⟩ | ⟨-, rfl⟩ | ⟨-, -, rfl⟩ | ⟨-, -, rfl⟩ := execPop_cases h
  · exact State.moveTo_mem _ _ _
  all_goals rfl

theorem execLd_mem (h : execLd fr a s = .next t) : t.mem = s.mem := by
  obtain ⟨_, -, -, -, rfl⟩ | ⟨-, rfl⟩ | ⟨-, -, rfl⟩ := execLd_cases h
  · exact State.moveTo_mem _ _ _
  all_goals rfl

theorem execInN_mem (h : execInN s = .next t) : t.mem = s.mem := by
  obtain ⟨-, rfl⟩ | ⟨_, _, -, rfl⟩ | ⟨_, -, rfl⟩ | ⟨_, -, rfl⟩ := execInN_cases h <;> rfl

theorem execOutS_mem (h : execOutS a s = .next t) : t.mem = s.mem := by
  obtain ⟨-, rfl⟩ | ⟨-, -, -, rfl⟩ | ⟨-, -, -, rfl⟩ := execOutS_cases h <;> rfl

theorem jumpIf_mem (c : Word → Bool) : (s.jumpIf c a).mem = s.mem := by
  obtain ⟨-, e⟩ | ⟨-, e⟩ := s.jumpIf_cases c a <;> rw [e] <;> rfl

theorem execPush_stores (h : execPush fr s = .next t) : Stores s (.push fr) t.mem := by
  obtain ⟨_, -, hlo, -, rfl⟩ | ⟨-, rfl⟩ | ⟨-, -, rfl⟩ | ⟨-, -, rfl⟩ := execPush_cases h
  · exact .push hlo
  all_goals exact .nothing

theorem execSt_stores (h : execSt fr a s = .next t) : Stores s (.st fr a) t.mem := by
  obtain ⟨_, -, hlo, -, rfl⟩ | ⟨-, rfl⟩ | ⟨-, -, rfl⟩ := execSt_cases h
  · exact .st hlo
  all_goals exact .nothing

/-- Only the string that fits is stored: the wait and the three faults leave memory alone. -/
theorem execInS_stores (h : execInS a s = .next t) : Stores s (.inS a) t.mem := by
  obtain ⟨-, rfl⟩ | ⟨hlo, -, h⟩ := execInS_cases h
  · exact .nothing
  · obtain ⟨-, rfl⟩ | ⟨_, -, rfl⟩ | ⟨_, -, rfl⟩ | ⟨_, _, -, -, rfl⟩ | ⟨_, _, hs, -, rfl⟩ := h
    exacts [.nothing, .nothing, .nothing, .nothing, .inS hlo hs]

/-- No instruction stores anything but PUSH, ST and IN_S (R57). -/
theorem exec_stores (h : exec i s = .next t) : Stores s i t.mem := by
  cases i with
  | push fr => exact execPush_stores h
  | st fr a => exact execSt_stores h
  | inS a => exact execInS_stores h
  | inN => exact .of_mem_eq (execInN_mem h)
  | outS a => exact .of_mem_eq (execOutS_mem h)
  | add na nb | sub na nb | mul na nb | div na nb => exact .of_mem_eq (arith_mem h)
  | con fr => exact .of_mem_eq (execCon_mem h)
  | pop fr => exact .of_mem_eq (execPop_mem h)
  | ld fr a => exact .of_mem_eq (execLd_mem h)
  | halt | outN | jmp a => obtain rfl := next_inj.1 h; exact .nothing
  | jgr a | jge a | jeq a | jne a | jle a | jls a => obtain rfl := next_inj.1 h; exact .of_mem_eq (jumpIf_mem _)

end Handlers

/-! ### The code zone (20_memory R64) -/

/-- Every store is above the code zone. -/
theorem Stores.read_code {s : State} {i : Instr} {m : Memory} (h : Stores s i m) {x : Nat} (hx : x ≤ 30000) :
    Memory.read m x = Memory.read s.mem x := by
  cases h with
  | nothing => rfl
  | push hlo | st hlo => exact Memory.read_write_ne _ (by omega)
  | inS hlo => exact Memory.read_writeAll_outside _ (.inl (by omega))

theorem step_read_code {s t : State} (h : step s = .next t) {x : Nat} (hx : x ≤ 30000) :
    Memory.read t.mem x = Memory.read s.mem x := by
  obtain ⟨-, ⟨-, rfl⟩ | ⟨-, i, -, hi⟩ | ⟨-, f, -, rfl⟩⟩ := step_cases h
  · rfl
  · exact (exec_stores hi).read_code hx
  · rfl

theorem run_read_code {k : Nat} {s t : State} (h : Host.Core.run core k s = .next t) {x : Nat} (hx : x ≤ 30000) :
    Memory.read t.mem x = Memory.read s.mem x := by
  induction k generalizing s with
  | zero => obtain rfl := next_inj.1 h; rfl
  | succ k ih =>
    obtain ⟨u, hu, hk⟩ := run_succ_next h
    exact (ih hk).trans (step_read_code hu hx)

/-! ### The primitives and the checks before them (20_memory R54) -/

/-- The increment POP makes keeps the slot in memory. -/
theorem toNat_succ_le_of_checkPop {sp : Word} (h : checkPop sp = .ok ()) : (sp + 1).toNat ≤ 50000 := by
  obtain ⟨-, hhi⟩ := checkPop_eq_ok.1 h
  rw [toNat_succ (by omega)]
  omega

/-- Every word of a string that fits after its base is in memory. -/
theorem toNat_add_le_of_checkFits {b : Word} {n k : Nat} (h : checkFits b n = .ok ()) (hk : k < n) :
    (b + BitVec.ofNat 64 k).toNat ≤ 50000 := by
  have hn := checkFits_eq_ok.1 h
  rw [BitVec.toNat_add, BitVec.toNat_ofNat]
  omega

/-- Within memory `MemWrite` stores its word, keeps the canonical form and leaves every other word alone. -/
theorem State.memWrite_canonical (s : State) {a : Word} (v : Word) (ha : a.toNat ≤ 50000)
    (hm : Memory.wf s.mem = true) :
    ∃ m, s.memWrite a v = .ok { s with mem := m } ∧ Memory.wf m = true ∧
      ∀ x, Memory.read m x = if x = a.toNat then v else Memory.read s.mem x :=
  ⟨_, s.memWrite_ok v ha, Memory.wf_write v hm ha, fun _ => Memory.read_write v hm⟩

end Sys2Proof.Machine

open Sys2Proof Sys2Proof.Machine

/-- Settles O58: the stores of one step, and an induction on the number of steps. -/
theorem loadedCodeIsImmutable : Obligations.LoadedCodeIsImmutable := fun _ _ _ h _ => run_read_code h

/-- Settles O43: the words the statement leaves out are those of `Stores`. -/
theorem memoryFrame : Obligations.MemoryFrame := by
  intro i s t h x hx
  generalize hm : t.mem = m
  cases hm ▸ exec_stores h with
  | nothing => rfl
  | push => exact Memory.read_write_ne _ hx
  | st => exact Memory.read_write_ne _ (by simpa using hx)
  | inS _ hs => exact Memory.read_writeAll_outside _ (by simpa using hx _ _ hs)

/-- Settles O37: each check in numbers, and the primitives below and above 50000. -/
theorem memoryPrimitivesAreChecked : Obligations.MemoryPrimitivesAreChecked := by
  refine fun s a v => ⟨fun h => ?_, toNat_succ_le_of_checkPop, fun h => ⟨(checkVariableZone_eq_ok.1 h).2, ?_⟩,
    fun h => ⟨s.memRead_error h, s.memWrite_error v h⟩, fun h hm => ⟨s.memRead_ok h, s.memWrite_canonical v h hm⟩⟩
  · obtain ⟨-, hhi⟩ := checkPush_eq_ok.1 h
    omega
  · exact fun _ _ => toNat_add_le_of_checkFits
end

section
/-!
PROOFS. The instruction encoding (30_encoding): each field as its bit range, a word as its fields side by side, and a
decoded word as the one whose bits its opcode reads are those of the encoding.
-/

namespace Sys2Proof

/-! ### A field as a bit range (30_encoding R81 to R87) -/

theorem getLsbD_maskBits {n i : Nat} (hi : i < 64) : (maskBits n).getLsbD i = decide (i < n) := by
  rw [maskBits, BitVec.getLsbD_ofNat, decide_eq_true hi, Bool.true_and, Nat.testBit_two_pow_sub_one]

/-- A field that the rotation brings down unbroken is the bit range above the place its lowest bit comes from. -/
theorem fieldWord_eq_extractLsb' (w : Word) {r n : Nat} (hr : r < 64) (hn : (64 - r) % 64 + n ≤ 64) :
    fieldWord w r n = (w.extractLsb' ((64 - r) % 64) n).setWidth 64 :=
  BitVec.eq_of_getLsbD_eq fun i hi => by
    rw [fieldWord, BitVec.getLsbD_and, getLsbD_rotl64 w hr hi, getLsbD_maskBits hi, BitVec.getLsbD_setWidth,
      BitVec.getLsbD_extractLsb', decide_eq_true hi, Bool.true_and, Bool.and_comm]
    by_cases hin : i < n
    · rw [show (i + 64 - r) % 64 = (64 - r) % 64 + i by omega]
    · rw [decide_eq_false hin, Bool.false_and, Bool.false_and]

/-- Cut to its width, such a field is the bit range itself. -/
theorem setWidth_fieldWord (w : Word) {r n : Nat} (hr : r < 64) (hn : (64 - r) % 64 + n ≤ 64) :
    (fieldWord w r n).setWidth n = w.extractLsb' ((64 - r) % 64) n := by
  rw [fieldWord_eq_extractLsb' w hr hn, BitVec.setWidth_setWidth_of_le _ (by omega), BitVec.setWidth_eq]

/-- Widened again, it is the rotated and masked word. -/
theorem setWidth_setWidth_fieldWord (w : Word) {r n : Nat} (hr : r < 64) (hn : (64 - r) % 64 + n ≤ 64) :
    ((fieldWord w r n).setWidth n).setWidth 64 = fieldWord w r n := by
  rw [setWidth_fieldWord w hr hn, fieldWord_eq_extractLsb' w hr hn]

theorem decodeOpcode_eq (w : Word) : decodeOpcode w = w.extractLsb' 56 8 :=
  setWidth_fieldWord w (by decide) (by decide)

theorem decodeNarrowOperand_rotNarrowA (w : Word) : decodeNarrowOperand w rotNarrowA = w.extractLsb' 52 4 :=
  setWidth_fieldWord w (by decide) (by decide)

theorem decodeNarrowOperand_rotNarrowB (w : Word) : decodeNarrowOperand w rotNarrowB = w.extractLsb' 48 4 :=
  setWidth_fieldWord w (by decide) (by decide)

theorem decodeFullRegister_eq (w : Word) : decodeFullRegister w = w.extractLsb' 43 5 :=
  setWidth_fieldWord w (by decide) (by decide)

theorem decodeAddressField_eq (w : Word) : decodeAddressField w = w.extractLsb' 0 32 :=
  setWidth_fieldWord w (by decide) (by decide)

/-! ### The fields of an encoded word (30_encoding R90) -/

section FieldsOfEncoded
variable (op : BitVec 8) (na nb : NarrowSel) (fr : FullSel) (addr : AddrField)

@[simp] theorem decodeOpcode_encodeFields : decodeOpcode (encodeFields op na nb fr addr) = op := by
  rw [decodeOpcode_eq, encodeFields_eq_append]
  iterate 4 refine (BitVec.extractLsb'_append_eq_of_le (by decide)).trans ?_
  exact BitVec.extractLsb'_append_eq_left

@[simp] theorem decodeNarrowOperand_rotNarrowA_encodeFields :
    decodeNarrowOperand (encodeFields op na nb fr addr) rotNarrowA = na := by
  rw [decodeNarrowOperand_rotNarrowA, encodeFields_eq_append]
  iterate 4 refine (BitVec.extractLsb'_append_eq_of_le (by decide)).trans ?_
  exact BitVec.extractLsb'_append_eq_right

@[simp] theorem decodeNarrowOperand_rotNarrowB_encodeFields :
    decodeNarrowOperand (encodeFields op na nb fr addr) rotNarrowB = nb := by
  rw [decodeNarrowOperand_rotNarrowB, encodeFields_eq_append]
  iterate 3 refine (BitVec.extractLsb'_append_eq_of_le (by decide)).trans ?_
  exact BitVec.extractLsb'_append_eq_right

@[simp] theorem decodeFullRegister_encodeFields : decodeFullRegister (encodeFields op na nb fr addr) = fr := by
  rw [decodeFullRegister_eq, encodeFields_eq_append]
  iterate 2 refine (BitVec.extractLsb'_append_eq_of_le (by decide)).trans ?_
  exact BitVec.extractLsb'_append_eq_right

@[simp] theorem decodeAddressField_encodeFields : decodeAddressField (encodeFields op na nb fr addr) = addr := by
  rw [decodeAddressField_eq, encodeFields_eq_append]
  exact BitVec.extractLsb'_append_eq_right

end FieldsOfEncoded

/-- A word is its five fields and the reserved bits, side by side (R82). -/
theorem append_fields (w : Word) :
    w.extractLsb' 56 8 ++ w.extractLsb' 52 4 ++ w.extractLsb' 48 4 ++ w.extractLsb' 43 5 ++ w.extractLsb' 32 11 ++
      w.extractLsb' 0 32 = w := by
  simp only [BitVec.extractLsb'_append_extractLsb'_eq_extractLsb']
  exact BitVec.extractLsb'_eq_self

/-- R90 (b). -/
theorem encodeFields_of_reserved {w : Word} (h : w.extractLsb' 32 11 = 0) :
    encodeFields (w.extractLsb' 56 8) (w.extractLsb' 52 4) (w.extractLsb' 48 4) (w.extractLsb' 43 5)
      (w.extractLsb' 0 32) = w := by
  rw [encodeFields_eq_append, ← h]
  exact append_fields w

/-- A canonical mask acts on each field by itself. -/
theorem and_eq_encodeFields (w : Word) {mask : Word} (h : mask.extractLsb' 32 11 = 0) :
    w &&& mask =
      encodeFields (w.extractLsb' 56 8 &&& mask.extractLsb' 56 8) (w.extractLsb' 52 4 &&& mask.extractLsb' 52 4)
        (w.extractLsb' 48 4 &&& mask.extractLsb' 48 4) (w.extractLsb' 43 5 &&& mask.extractLsb' 43 5)
        (w.extractLsb' 0 32 &&& mask.extractLsb' 0 32) := by
  have hr : (w &&& mask).extractLsb' 32 11 = 0 := by rw [BitVec.extractLsb'_and, h]; exact BitVec.and_zero
  simpa only [BitVec.extractLsb'_and] using (encodeFields_of_reserved hr).symm

/-! ### Decoding and encoding (30_encoding R88 to R92) -/

theorem decode_of_opcode {w : Word} {m : Mnemonic} (h : decodeOpcode w = m.opcode) :
    decode w = .ok (m.fromWord w) := by
  rw [decode, h, Mnemonic.ofOpcode_opcode]

theorem decode_eq_ok_iff {w : Word} {i : Instr} :
    decode w = .ok i ↔ decodeOpcode w = i.mnemonic.opcode ∧ i.mnemonic.fromWord w = i := by
  constructor
  · intro h
    obtain ⟨m, hm, hd⟩ | ⟨-, hd⟩ := decode_cases w
    · obtain rfl : m.fromWord w = i := Except.ok.inj (hd.symm.trans h)
      rw [Mnemonic.mnemonic_fromWord]
      exact ⟨(Mnemonic.opcode_of_ofOpcode hm).symm, rfl⟩
    · cases hd.symm.trans h
  · rintro ⟨ho, hi⟩
    rw [decode_of_opcode ho, hi]

@[simp] theorem decodeOpcode_encode (i : Instr) : decodeOpcode (encode i) = i.mnemonic.opcode := by
  cases i <;> exact decodeOpcode_encodeFields ..

/-- The fields an opcode reads are the fields its encoding places (R91). -/
theorem fromWord_encode (i : Instr) : i.mnemonic.fromWord (encode i) = i := by
  cases i <;> simp [Instr.mnemonic, Mnemonic.fromWord, encode]

theorem decode_encode (i : Instr) : decode (encode i) = .ok i :=
  decode_eq_ok_iff.2 ⟨decodeOpcode_encode i, fromWord_encode i⟩

theorem encode_injective {i j : Instr} (h : encode i = encode j) : i = j :=
  Except.ok.inj ((decode_encode i).symm.trans ((congrArg decode h).trans (decode_encode j)))

/-! ### The bits an opcode reads (30_encoding R91, R92) -/

theorem readMask_reserved (m : Mnemonic) : m.readMask.extractLsb' 32 11 = 0 := by
  cases m <;> rfl

/-- Every opcode reads the whole opcode field. -/
theorem readMask_opcode (m : Mnemonic) : m.readMask.extractLsb' 56 8 = BitVec.allOnes 8 := by
  cases m <;> rfl

theorem decodeOpcode_and_readMask (w : Word) (m : Mnemonic) : decodeOpcode (w &&& m.readMask) = decodeOpcode w := by
  rw [decodeOpcode_eq, decodeOpcode_eq, BitVec.extractLsb'_and, readMask_opcode, BitVec.and_allOnes]

/-- Field by field, the mask is all ones where the instruction carries the field and zero where it does not. -/
theorem encode_fromWord {w : Word} {m : Mnemonic} (h : decodeOpcode w = m.opcode) :
    encode (m.fromWord w) = w &&& m.readMask := by
  have h4 (x : BitVec 4) : x &&& 15#4 = x := BitVec.and_allOnes
  have h5 (x : BitVec 5) : x &&& 31#5 = x := BitVec.and_allOnes
  have h32 (x : BitVec 32) : x &&& 4294967295#32 = x := BitVec.and_allOnes
  rw [and_eq_encodeFields w (readMask_reserved m), readMask_opcode, BitVec.and_allOnes, ← decodeOpcode_eq, h]
  cases m <;> simp [Mnemonic.fromWord, encode, Instr.mnemonic, Mnemonic.readMask, decodeNarrowOperand_rotNarrowA,
    decodeNarrowOperand_rotNarrowB, decodeFullRegister_eq, decodeAddressField_eq, h4, h5, h32]

/-- A word decodes to an instruction just if the bits the opcode reads are those of the encoding. -/
theorem decode_eq_ok_iff_and_readMask {w : Word} {i : Instr} :
    decode w = .ok i ↔ w &&& i.mnemonic.readMask = encode i := by
  constructor
  · intro h
    obtain ⟨ho, hi⟩ := decode_eq_ok_iff.1 h
    rw [← encode_fromWord ho, hi]
  · intro h
    have ho : decodeOpcode w = i.mnemonic.opcode := by
      rw [← decodeOpcode_and_readMask w i.mnemonic, h, decodeOpcode_encode]
    exact decode_eq_ok_iff.2 ⟨ho, encode_injective ((encode_fromWord ho).trans h)⟩

/-! ### The opcode map (30_encoding R95, R96) -/

/-- The unassigned numbers are 0 and those above the last opcode. -/
theorem Mnemonic.ofOpcode_eq_none {op : BitVec 8} :
    Mnemonic.ofOpcode op = none ↔ op.toNat = 0 ∨ 0x15 < op.toNat := by
  revert op
  decide

end Sys2Proof

open Sys2Proof Sys2Proof.Machine

/-- Settles O4: opcode and fields come back from an encoded word. -/
theorem decodeOfEncodeIsIdentity : Obligations.DecodeOfEncodeIsIdentity := decode_encode

/-- Settles O1: no field is broken by its rotation. -/
theorem decoderFieldsAreBitRanges : Obligations.DecoderFieldsAreBitRanges := fun w =>
  ⟨⟨setWidth_setWidth_fieldWord w (by decide) (by decide), decodeOpcode_eq w⟩,
    ⟨setWidth_setWidth_fieldWord w (by decide) (by decide), decodeNarrowOperand_rotNarrowA w⟩,
    ⟨setWidth_setWidth_fieldWord w (by decide) (by decide), decodeNarrowOperand_rotNarrowB w⟩,
    ⟨setWidth_setWidth_fieldWord w (by decide) (by decide), decodeFullRegister_eq w⟩,
    setWidth_setWidth_fieldWord w (by decide) (by decide), congrArg address (decodeAddressField_eq w)⟩

/-- Settles O3: (a) field by field, (b) as fields side by side, (c) by the mask of the reserved bits. -/
theorem fieldCodecRoundTrips : Obligations.FieldCodecRoundTrips := by
  refine ⟨fun op na nb fr addr => ?_, fun w h => ?_, fun w => ?_⟩
  · simp
  · rw [decodeOpcode_eq]
    exact encodeFields_of_reserved h
  · rw [and_eq_encodeFields w rfl, decodeOpcode_eq]
    congr 1
    all_goals exact BitVec.and_allOnes.symm

/-- Settles O5: an assigned number by its opcode, any other by its range. -/
theorem opcodeMapDecodesEveryWord : Obligations.OpcodeMapDecodesEveryWord := by
  intro w
  obtain ⟨m, hm, hd⟩ | ⟨hm, hd⟩ := decode_cases w
  · rw [hd, ← decodeOpcode_eq, ← Mnemonic.opcode_of_ofOpcode hm, ← decodeNarrowOperand_rotNarrowA,
      ← decodeNarrowOperand_rotNarrowB, ← decodeFullRegister_eq, ← decodeAddressField_eq]
    cases m <;> rfl
  · rw [decodeOpcode_eq] at hm hd
    have hn := Mnemonic.ofOpcode_eq_none.1 hm
    rw [hd]
    split
    case h_22 => rfl
    all_goals omega

/-- Settles O6: words that agree on the bits read meet the same encoding. -/
theorem unreadBitsAreIgnored : Obligations.UnreadBitsAreIgnored := fun _ _ h =>
  have hi := decode_eq_ok_iff_and_readMask.1 h
  ⟨hi.symm, fun _ h' => decode_eq_ok_iff_and_readMask.2 (h'.trans hi)⟩
end

section
/-!
PROOFS. Fetch, decode, dispatch (40_dispatch): the step as the handler of the decoded instruction (R110 to R114), an
answer for every handler, the `ip` a completed handler leaves (R115), and the wait for input (R119).
-/

namespace Sys2Proof.Machine

/-! ### Assigned and unassigned opcodes (40_dispatch R113) -/

theorem exists_decode_ok {w : Word} (h : 1 ≤ (decodeOpcode w).toNat ∧ (decodeOpcode w).toNat ≤ 0x15) :
    ∃ i, decode w = .ok i := by
  obtain ⟨m, -, hd⟩ | ⟨hm, -⟩ := decode_cases w
  · exact ⟨_, hd⟩
  · have := Mnemonic.ofOpcode_eq_none.1 hm
    omega

theorem decode_unassigned {w : Word} (h : (decodeOpcode w).toNat = 0 ∨ 0x16 ≤ (decodeOpcode w).toNat) :
    decode w = .error (.invalidOpcode (decodeOpcode w)) := by
  rw [decode, Mnemonic.ofOpcode_eq_none.2 h]

/-! ### The step (40_dispatch R110 to R114) -/

section Steps

variable {s : State} (hd : s.discarded = false) (hr : s.runState = some .running)

include hd hr

theorem step_of_nextInstr_ok {i : Instr} (hn : s.nextInstr = .ok i) : step s = exec i s := by
  rw [step_running hd hr, hn]

theorem step_of_nextInstr_error {f : FaultRecord} (hn : s.nextInstr = .error f) : step s = .next (s.raise f) := by
  rw [step_running hd hr, hn]

end Steps

/-! ### Every handler answers a next state -/

theorem State.exists_finish (s : State) (r : Except FaultRecord State) : ∃ t, s.finish r = .next t := by
  cases r <;> exact ⟨_, rfl⟩

theorem exists_execInN (s : State) : ∃ t, execInN s = .next t := by
  unfold execInN
  split <;> exact ⟨_, rfl⟩

theorem exists_execInS (a : AddrField) (s : State) : ∃ t, execInS a s = .next t := by
  unfold execInS
  split
  · exact ⟨_, rfl⟩
  · unfold State.readString
    split
    case h_4 => exact State.exists_finish _ _
    all_goals exact ⟨_, rfl⟩

theorem exists_exec (i : Instr) (s : State) : ∃ t, exec i s = .next t := by
  cases i with
  | inN => exact exists_execInN s
  | inS a => exact exists_execInS a s
  | halt | outN | jmp a | jgr a | jge a | jeq a | jne a | jle a | jls a => exact ⟨_, rfl⟩
  | outS a | add na nb | sub na nb | mul na nb | div na nb | con fr | push fr | pop fr | ld fr a | st fr a =>
    exact State.exists_finish _ _

theorem exists_step {s : State} (hd : s.discarded = false) : ∃ t, step s = .next t := by
  by_cases hr : s.runState = some .running
  · cases hn : s.nextInstr with
    | ok i => rw [step_of_nextInstr_ok hd hr hn]; exact exists_exec i s
    | error f => exact ⟨_, step_of_nextInstr_error hd hr hn⟩
  · exact ⟨s, step_idle hd hr⟩

/-! ### Registers by index (40_dispatch R117) -/

theorem Reg.exists_ofIndex {i : Nat} (h : i ≤ 10) : ∃ r, Reg.ofIndex i = some r :=
  Option.isSome_iff_exists.1 ((Reg.ofIndex_isSome i).2 h)

/-- A full selector names `ip` just if it is 8. -/
theorem Reg.eq_ip_iff_of_ofIndex {fr : FullSel} {r : Reg} (h : Reg.ofIndex fr.toNat = some r) : r = .ip ↔ fr = 8 := by
  rw [BitVec.toNat_eq, ← Option.some_inj, ← h]
  exact Reg.ofIndex_eq_ip

/-! ### The next `ip` of a handler that completes (40_dispatch R115) -/

section NextIp

variable {s t : State} {fr : FullSel} {a : AddrField}

theorem State.read_jumpIf_ip (s : State) (c : Word → Bool) (a : AddrField) :
    (s.jumpIf c a).read .ip = if c (s.read .acc) = true then address a else s.read .ip + 1 := by
  obtain ⟨hc, e⟩ | ⟨hc, e⟩ := s.jumpIf_cases c a <;> simp [hc, e]

/-- A move into the register a full selector names is a control transfer for selector 8 alone. -/
theorem State.read_moveTo_ip_of_ofIndex (s : State) {r : Reg} (v : Word) (h : Reg.ofIndex fr.toNat = some r) :
    (s.moveTo r v).read .ip = if fr = 8 then v else s.read .ip + 1 := by
  simp only [State.read_moveTo_ip, Reg.eq_ip_iff_of_ofIndex h]

variable (hf : t.runState ≠ some .faulted)

include hf

theorem arith_ip {f : Word → Word → Word} {na nb : NarrowSel} (h : s.finish (s.arith f na nb) = .next t) :
    t.read .ip = s.read .ip + 1 := by
  obtain ⟨_, _, -, -, rfl⟩ | ⟨-, rfl⟩ | ⟨-, -, rfl⟩ := arith_cases h
  · rfl
  all_goals exact absurd rfl hf

theorem execCon_ip (h : execCon fr s = .next t) : t.read .ip = s.read .ip + 1 := by
  obtain ⟨_, -, rfl⟩ | ⟨-, rfl⟩ := execCon_cases h
  · rfl
  · exact absurd rfl hf

theorem execPush_ip (h : execPush fr s = .next t) : t.read .ip = s.read .ip + 1 := by
  obtain ⟨_, -, -, -, rfl⟩ | ⟨-, rfl⟩ | ⟨-, -, rfl⟩ | ⟨-, -, rfl⟩ := execPush_cases h
  · rfl
  all_goals exact absurd rfl hf

theorem execPop_ip (h : execPop fr s = .next t) :
    t.read .ip = if fr = 8 then Memory.read s.mem (s.read .sp + 1).toNat else s.read .ip + 1 := by
  obtain ⟨_, hr, -, hsp, rfl⟩ | ⟨-, rfl⟩ | ⟨-, -, rfl⟩ | ⟨-, -, rfl⟩ := execPop_cases h
  · rw [State.read_moveTo_ip_of_ofIndex _ _ hr, State.read_write_ne _ _ (by decide), toNat_succ (by omega)]
  all_goals exact absurd rfl hf

theorem execLd_ip (h : execLd fr a s = .next t) :
    t.read .ip = if fr = 8 then Memory.read s.mem (address a).toNat else s.read .ip + 1 := by
  obtain ⟨_, hr, -, -, rfl⟩ | ⟨-, rfl⟩ | ⟨-, -, rfl⟩ := execLd_cases h
  · rw [State.read_moveTo_ip_of_ofIndex _ _ hr, toNat_address]
  all_goals exact absurd rfl hf

theorem execSt_ip (h : execSt fr a s = .next t) : t.read .ip = s.read .ip + 1 := by
  obtain ⟨_, -, -, -, rfl⟩ | ⟨-, rfl⟩ | ⟨-, -, rfl⟩ := execSt_cases h
  · rfl
  all_goals exact absurd rfl hf

theorem execOutS_ip (h : execOutS a s = .next t) : t.read .ip = s.read .ip + 1 := by
  obtain ⟨-, rfl⟩ | ⟨-, -, -, rfl⟩ | ⟨-, -, -, rfl⟩ := execOutS_cases h
  · exact absurd rfl hf
  · exact absurd rfl hf
  · rfl

theorem execInN_ip (hw : t.inputWait = none) (h : execInN s = .next t) : t.read .ip = s.read .ip + 1 := by
  obtain ⟨-, rfl⟩ | ⟨_, _, -, rfl⟩ | ⟨_, -, rfl⟩ | ⟨_, -, rfl⟩ := execInN_cases h
  · cases hw
  · rfl
  all_goals exact absurd rfl hf

theorem execInS_ip (hw : t.inputWait = none) (h : execInS a s = .next t) : t.read .ip = s.read .ip + 1 := by
  obtain ⟨-, rfl⟩ | ⟨-, -, h⟩ := execInS_cases h
  · exact absurd rfl hf
  · obtain ⟨-, rfl⟩ | ⟨_, -, rfl⟩ | ⟨_, -, rfl⟩ | ⟨_, _, -, -, rfl⟩ | ⟨_, _, -, -, rfl⟩ := h
    · cases hw
    · exact absurd rfl hf
    · exact absurd rfl hf
    · exact absurd rfl hf
    · rfl

end NextIp

/-! ### The wait for input (40_dispatch R119) -/

section Wait

variable {s : State}

/-- Waiting changes nothing that the fetch or the decoder looks at. -/
@[simp] theorem State.nextInstr_await (s : State) (q : InputRequest) : (s.await q).nextInstr = s.nextInstr :=
  State.nextInstr_congr rfl rfl

theorem exec_inN_await (hs : s.numAnswers = []) : exec .inN s = .next (s.await .num) := by
  simp only [exec, execInN, hs]

/-- A base in the variable zone lets the request go out (41_system_io R145). -/
theorem exec_inS_of_base (s : State) {b : AddrField} (hlo : 40001 ≤ b.toNat) (hhi : b.toNat ≤ 50000) :
    exec (.inS b) s = s.readString (address b) := by
  have hb : checkVariableZone (address b) = .ok () := checkVariableZone_eq_ok.2 (by simpa using ⟨hlo, hhi⟩)
  simp only [exec, execInS, hb]

theorem exec_inS_await {b : AddrField} (hlo : 40001 ≤ b.toNat) (hhi : b.toNat ≤ 50000) (hs : s.strAnswers = []) :
    exec (.inS b) s = .next (s.await .str) := by
  rw [exec_inS_of_base s hlo hhi]
  simp only [State.readString, hs]

/-- An answer consumed ends the wait, so IN_N does not ask whether there was one. -/
theorem exec_inN_of_await (q : InputRequest) {a : NumAnswer} {rest : List NumAnswer} (hs : s.numAnswers = a :: rest) :
    exec .inN (s.await q) = exec .inN s := by
  simp only [exec, execInN, State.await_numAnswers, hs]
  cases a <;> rfl

theorem exec_inS_of_await (q : InputRequest) {b : AddrField} (hlo : 40001 ≤ b.toNat) (hhi : b.toNat ≤ 50000)
    {a : StrAnswer} {rest : List StrAnswer} (hs : s.strAnswers = a :: rest) :
    exec (.inS b) (s.await q) = exec (.inS b) s := by
  rw [exec_inS_of_base _ hlo hhi, exec_inS_of_base s hlo hhi]
  simp only [State.readString, State.await_strAnswers, hs]
  cases a <;> rfl

variable (hd : s.discarded = false) (hr : s.runState = some .running) {i : Instr} (hn : s.nextInstr = .ok i)

include hd hr hn

/-- An instruction that waits, and waits again when it is tried again, waits for any positive number of steps. -/
theorem run_of_await {q : InputRequest} (h : exec i s = .next (s.await q))
    (h' : exec i (s.await q) = .next ((s.await q).await q)) (k : Nat) :
    Host.Core.run core (k + 1) s = .next (s.await q) :=
  have hw : step (s.await q) = .next (s.await q) :=
    (step_of_nextInstr_ok (s := s.await q) hd hr ((s.nextInstr_await q).trans hn)).trans h'
  (run_succ_of_next k ((step_of_nextInstr_ok hd hr hn).trans h)).trans (run_of_step_self hw k)

/-- The step of a waiting session is that of the session without the wait, where the handler does not see it. -/
theorem step_await_of_exec {q : InputRequest} (h : exec i (s.await q) = exec i s) : step (s.await q) = step s := by
  rw [step_of_nextInstr_ok hd hr hn, ← h]
  exact step_of_nextInstr_ok (s := s.await q) hd hr ((s.nextInstr_await q).trans hn)

end Wait

end Sys2Proof.Machine

open Sys2Proof Sys2Proof.Machine

/-- Settles O10: an assigned number by its opcode, any other by the fault of the dispatch. -/
theorem dispatchSelectsOneHandler : Obligations.DispatchSelectsOneHandler := by
  intro s hd hr hip
  dsimp only
  rw [← decodeOpcode_eq]
  refine ⟨fun h => ?_, fun h => ?_⟩
  · obtain ⟨i, hi⟩ := exists_decode_ok h
    have hstep := step_of_nextInstr_ok hd hr (State.nextInstr_ok hip hi)
    exact ⟨i, ⟨hi, (decode_eq_ok_iff.1 hi).1.symm, hstep⟩, fun j hj => Except.ok.inj (hj.1.symm.trans hi)⟩
  · exact step_of_nextInstr_error hd hr (State.nextInstr_invalid hip (decode_unassigned h))

/-- Settles O12: by the handler. -/
theorem nextInstructionPointer : Obligations.NextInstructionPointer := by
  intro i s t _ _ h hf hw
  cases i with
  | inN => exact execInN_ip hf hw h
  | inS a => exact execInS_ip hf hw h
  | outS a => exact execOutS_ip hf h
  | add na nb | sub na nb | mul na nb | div na nb => exact arith_ip hf h
  | con fr => exact execCon_ip hf h
  | push fr => exact execPush_ip hf h
  | pop fr => exact execPop_ip hf h
  | ld fr a => exact execLd_ip hf h
  | st fr a => exact execSt_ip hf h
  | halt | outN | jmp a => obtain rfl := next_inj.1 h; rfl
  | jgr a => obtain rfl := next_inj.1 h; simpa [condGr] using s.read_jumpIf_ip condGr a
  | jge a => obtain rfl := next_inj.1 h; simpa [condGe] using s.read_jumpIf_ip condGe a
  | jeq a => obtain rfl := next_inj.1 h; simpa [condEq] using s.read_jumpIf_ip condEq a
  | jne a => obtain rfl := next_inj.1 h; simpa [condNe] using s.read_jumpIf_ip condNe a
  | jle a => obtain rfl := next_inj.1 h; simpa [condLe] using s.read_jumpIf_ip condLe a
  | jls a => obtain rfl := next_inj.1 h; simpa [condLs] using s.read_jumpIf_ip condLs a

/-- Settles O49: the helpers by what the index names. -/
theorem selectorsNameElevenRegisters : Obligations.SelectorsNameElevenRegisters := by
  refine ⟨by decide, fun s => ⟨fun i => ⟨fun h => ?_, s.regNarrow_error⟩,
    fun i => ⟨fun h => ?_, fun h => ⟨s.regFull_error h, checkFull_error h⟩⟩⟩⟩
  · obtain ⟨r, hr⟩ := Reg.exists_ofIndex h
    exact ⟨r, hr, s.regNarrow_ok hr⟩
  · obtain ⟨r, hr⟩ := Reg.exists_ofIndex h
    exact ⟨r, hr, s.regFull_ok hr, checkFull_ok hr⟩

/-- Settles O8: the word decoded is the next instruction. -/
theorem stepRunsTheDecodedInstruction : Obligations.StepRunsTheDecodedInstruction := fun _ _ hd hr hip hi =>
  step_of_nextInstr_ok hd hr (State.nextInstr_ok hip hi)

/-- Settles O9: the fetch below and above 50000. -/
theorem fetchIsBoundsChecked : Obligations.FetchIsBoundsChecked := fun _ =>
  ⟨State.fetch_ok, fun h =>
    ⟨State.fetch_error h, fun hd hr => step_of_nextInstr_error hd hr (State.nextInstr_fetchError h)⟩⟩

/-- Settles O11: a step outside Running leaves the state as it is, and so does any number of them. -/
theorem noStepOutsideRunning : Obligations.NoStepOutsideRunning := fun _ k hd hr =>
  run_of_step_self (step_idle hd hr) k

/-- Settles O14: every handler answers a next state, and so do the faults of the fetch and of the dispatch. -/
theorem everyStepHasANextState : Obligations.EveryStepHasANextState := ⟨fun _ => exists_step, exists_exec⟩

/-- Settles O17: a handler that waits tries again and waits again; with an answer it does not see the wait. -/
theorem inputWaitBlocksTheEngine : Obligations.InputWaitBlocksTheEngine := by
  refine fun s hd hr => ⟨fun hn hs => ⟨?_, fun a => ?_⟩, fun b hn hlo hhi hs => ⟨?_, fun a => ?_⟩⟩
  · exact run_of_await hd hr hn (exec_inN_await hs) (exec_inN_await hs)
  · exact step_await_of_exec (s := { s with numAnswers := [a] }) hd hr hn (exec_inN_of_await .num rfl)
  · exact run_of_await hd hr hn (exec_inS_await hlo hhi hs) (exec_inS_await hlo hhi hs)
  · exact step_await_of_exec (s := { s with strAnswers := [a] }) hd hr hn (exec_inS_of_await .str hlo hhi rfl)
end

section
/-!
PROOFS. System control and input/output (41_system_io): the words of the five instructions, and one equation per branch
of IN_S and OUT_S, from which the statements are read off.
-/

namespace Sys2Proof

/-! ### The words of the instructions (30_encoding R91, R95) -/

/-- A word is decoded by the number in its top byte. -/
theorem decode_of_top_byte {w : Word} (m : Mnemonic) (h : w.extractLsb' 56 8 = m.opcode) :
    decode w = .ok (m.fromWord w) :=
  decode_of_opcode ((decodeOpcode_eq w).trans h)

end Sys2Proof

namespace Sys2Proof.Machine

variable {s : State} {b : AddrField} {cs : List Word} {rest : List StrAnswer}

/-! ### The checks on a base given by an address field (41_system_io R145, R147) -/

theorem checkVariableZone_address_ok (hlo : 40001 ≤ b.toNat) (hhi : b.toNat ≤ 50000) :
    checkVariableZone (address b) = .ok () :=
  checkVariableZone_ok (by rwa [toNat_address]) (by rwa [toNat_address])

theorem checkVariableZone_address_error (hb : b.toNat < 40001 ∨ 50000 < b.toNat) :
    checkVariableZone (address b) = .error (.outOfBounds (address b)) :=
  checkVariableZone_error (by rwa [toNat_address])

theorem checkFits_address_ok {n : Nat} (hn : n ≤ 50001 - b.toNat) : checkFits (address b) n = .ok () :=
  checkFits_ok (by rwa [toNat_address])

theorem checkFits_address_error {n : Nat} (hn : 50001 - b.toNat < n) :
    checkFits (address b) n = .error (.outOfBounds 50001) :=
  checkFits_error (by rwa [toNat_address])

/-! ### IN_N (41_system_io R141) -/

section InN

variable {rest : List NumAnswer}

theorem exec_inN_value {v : Word} (hs : s.numAnswers = .value v :: rest) :
    exec .inN s = .next ((s.consumeNum (.value v) rest).write .acc v).advance := by
  simp only [exec, execInN, hs]

theorem exec_inN_malformed (hs : s.numAnswers = .malformed :: rest) :
    exec .inN s = .next ((s.consumeNum .malformed rest).raise .malformed) := by
  simp only [exec, execInN, hs]

theorem exec_inN_endOfInput (hs : s.numAnswers = .endOfInput :: rest) :
    exec .inN s = .next ((s.consumeNum .endOfInput rest).raise .endOfInput) := by
  simp only [exec, execInN, hs]

end InN

/-! ### IN_S (41_system_io R145) -/

theorem exec_inS_outside (s : State) (hb : b.toNat < 40001 ∨ 50000 < b.toNat) :
    exec (.inS b) s = .next (s.raise (.outOfBounds (address b))) := by
  simp only [exec, execInS, checkVariableZone_address_error hb]

theorem State.readString_malformed (hs : s.strAnswers = .malformed :: rest) (a : Word) :
    s.readString a = .next ((s.consumeStr .malformed rest).raise .malformed) := by
  simp only [State.readString, hs]

theorem State.readString_endOfInput (hs : s.strAnswers = .endOfInput :: rest) (a : Word) :
    s.readString a = .next ((s.consumeStr .endOfInput rest).raise .endOfInput) := by
  simp only [State.readString, hs]

/-- A string too long for its base is consumed before the fault is raised. -/
theorem State.readString_too_long (hs : s.strAnswers = .chars cs :: rest) (hn : 50001 - b.toNat < cs.length) :
    s.readString (address b) = .next ((s.consumeStr (.chars cs) rest).raise (.outOfBounds 50001)) := by
  simp only [State.readString, hs, checkFits_address_error hn, Except.error_bind', State.finish_error]

/-- A string that fits is written whole, its length going to `acc`. -/
theorem State.readString_fits (hs : s.strAnswers = .chars cs :: rest) (hb : b.toNat ≤ 50000)
    (hn : cs.length ≤ 50001 - b.toNat) :
    s.readString (address b) =
      .next (State.write { s.consumeStr (.chars cs) rest with mem := Memory.writeAll s.mem b.toNat cs } .acc
        (BitVec.ofNat 64 cs.length)).advance := by
  have hw := (s.consumeStr (.chars cs) rest).memWriteAll_ok (a := address b) cs (by rw [toNat_address]; omega)
  simp only [State.readString, hs, checkFits_address_ok hn, hw, toNat_address, Except.ok_bind', Except.pure_eq_ok,
    State.finish_ok, State.consumeStr_mem]

/-! ### OUT_S (41_system_io R147) -/

theorem exec_outS_outside (s : State) (hb : b.toNat < 40001 ∨ 50000 < b.toNat) :
    exec (.outS b) s = .next (s.raise (.outOfBounds (address b))) := by
  simp only [exec, execOutS, checkVariableZone_address_error hb, Except.error_bind', State.finish_error]

theorem exec_outS_too_long (hlo : 40001 ≤ b.toNat) (hhi : b.toNat ≤ 50000)
    (hn : 50001 - b.toNat < (s.read .acc).toNat) :
    exec (.outS b) s = .next (s.raise (.outOfBounds 50001)) := by
  simp only [exec, execOutS, checkVariableZone_address_ok hlo hhi, checkFits_address_error hn, Except.ok_bind',
    Except.error_bind', State.finish_error]

theorem exec_outS_fits (hlo : 40001 ≤ b.toNat) (hhi : b.toNat ≤ 50000)
    (hn : (s.read .acc).toNat ≤ 50001 - b.toNat) :
    exec (.outS b) s =
      .next (s.emit (.str (Memory.readAll s.mem b.toNat (s.read .acc).toNat))).advance := by
  have hr := s.memReadAll_ok (a := address b) (n := (s.read .acc).toNat) (by rw [toNat_address]; omega)
  simp only [exec, execOutS, checkVariableZone_address_ok hlo hhi, checkFits_address_ok hn, hr, toNat_address,
    Except.ok_bind', Except.pure_eq_ok, State.finish_ok]

end Sys2Proof.Machine

open Sys2Proof Sys2Proof.Machine

/-- Settles O19: the base outside its zone, then the answers in turn, a string by whether it fits. -/
theorem inSWritesTheString : Obligations.InSWritesTheString := by
  refine ⟨fun w h => ?_, fun a s rest => ⟨exec_inS_outside s, fun hlo hhi => ?_⟩⟩
  · rw [← decodeAddressField_eq]
    exact decode_of_top_byte .inS h
  refine ⟨fun hs => ⟨some .str, exec_inS_await hlo hhi hs⟩, ?_⟩
  rw [exec_inS_of_base s hlo hhi]
  refine ⟨fun hs => State.readString_malformed hs _, fun hs => State.readString_endOfInput hs _,
    fun _ => State.readString_too_long, fun cs hs hn hm => ?_⟩
  have hfit : a.toNat + cs.length ≤ 50001 := by omega
  exact ⟨Memory.writeAll s.mem a.toNat cs, State.readString_fits hs hhi hn,
    fun _ => Memory.read_writeAll_inside cs hm hfit, fun _ => Memory.read_writeAll_outside cs⟩

/-- Settles O20: the base outside its zone, too many words, and the words emitted as a list of reads. -/
theorem outSEmitsTheString : Obligations.OutSEmitsTheString := by
  refine ⟨fun w h => ?_, fun a s => ⟨exec_outS_outside s, exec_outS_too_long, fun hlo hhi hn => ?_⟩⟩
  · rw [← decodeAddressField_eq]
    exact decode_of_top_byte .outS h
  · rw [← Memory.readAll_eq_map]
    exact exec_outS_fits hlo hhi hn

/-- Settles O15: a halted session is not running, so its next step is idle. -/
theorem haltStopsTheEngine : Obligations.HaltStopsTheEngine := by
  refine ⟨fun _ => decode_of_top_byte .halt, fun s => ⟨rfl, fun hd t ht => ?_⟩⟩
  obtain rfl : s.enterHalted = t := next_inj.1 ht
  exact step_idle hd (by simp)

/-- Settles O16: by the answer at the head of the queue. -/
theorem inNReadsOneNumber : Obligations.InNReadsOneNumber :=
  ⟨fun _ => decode_of_top_byte .inN, fun _ _ => ⟨fun hs => ⟨some .num, exec_inN_await hs⟩,
    fun _ => exec_inN_value, exec_inN_malformed, exec_inN_endOfInput⟩⟩

/-- Settles O18: the handler emits `acc` and advances, whatever the state. -/
theorem outNEmitsTheAccumulator : Obligations.OutNEmitsTheAccumulator :=
  ⟨fun _ => decode_of_top_byte .outN, fun _ => rfl⟩
end

section
/-!
PROOFS. Arithmetic and conversion (42_arithmetic R160 to R166): each operation on finite numbers is one rounding of the
exact result under a known sign; the results that involve an infinity or a NaN are read off the operation's cases.
-/

namespace Sys2Proof.Machine

variable {a b w : Word} {x y : ℚ} {s u : Bool}

/-! ### Exact results rounded once (42_arithmetic R160 (a), (c), (e)) -/

/-- The pattern `w` is the exact value `x` rounded once, its sign bit `u` a sign of `x`. -/
def RoundedWithSign (u : Bool) (x : ℚ) (w : Word) : Prop :=
  ∃ p q : Nat, 0 < q ∧ x = signFactor u * p / (q * unitsPerOne) ∧ w = withSign u (roundMag p q)

theorem abs_signFactor_mul_div {p q : Nat} : |signFactor u * p / (q * unitsPerOne)| = (p : ℚ) / (q * unitsPerOne) := by
  rw [abs_div, abs_mul, abs_signFactor, one_mul, Nat.abs_cast, abs_mul, Nat.abs_cast, Nat.abs_cast]

theorem RoundedWithSign.signFactor_mul_abs (h : RoundedWithSign u x w) : signFactor u * |x| = x := by
  obtain ⟨p, q, -, rfl, -⟩ := h
  rw [abs_signFactor_mul_div, mul_div_assoc]

theorem RoundedWithSign.isRounded (h : RoundedWithSign u x w) : IsRounded x w := by
  have hs := h.signFactor_mul_abs
  obtain ⟨p, q, hq, rfl, rfl⟩ := h
  have hU := unitsPerOne_pos
  have hq' : (0 : ℚ) < q := by exact_mod_cast hq
  exact isRounded_withSign hq (by rw [abs_signFactor_mul_div]; field_simp) hs

/-- The sign of a nonzero value is the sign bit. -/
theorem RoundedWithSign.decide_neg (h : RoundedWithSign u x w) (hx : x ≠ 0) : decide (x < 0) = u := by
  have hs := h.signFactor_mul_abs
  have := abs_pos.2 hx
  cases u
  · simpa [signFactor] using hs
  · simp only [signFactor, if_true] at hs
    exact decide_eq_true (by linarith)

/-- Up to half the least subnormal the result is the zero of the sign. -/
theorem RoundedWithSign.eq_zero (h : RoundedWithSign u x w) (hx : |x| * 2 ^ 1075 ≤ 1) : w = withSign u 0 := by
  obtain ⟨p, q, hq, rfl, rfl⟩ := h
  have hq' : (0 : ℚ) < q := by exact_mod_cast hq
  have hp : (p : ℚ) / (q * unitsPerOne) * 2 ^ 1075 = 2 * p / q := by
    rw [unitsPerOne_eq, Nat.cast_pow, Nat.cast_ofNat, pow_succ (2 : ℚ) 1074]
    field_simp
  rw [abs_signFactor_mul_div, hp, div_le_one hq'] at hx
  rw [roundMag_eq_zero hq (by exact_mod_cast hx)]

/-- An exact zero is the zero of the sign. -/
theorem RoundedWithSign.eq_zero_of_exact (h : RoundedWithSign u x w) (hx : x = 0) : w = withSign u 0 :=
  h.eq_zero (by rw [hx, abs_zero, zero_mul]; exact zero_le_one)

/-- From `2^1024` on the result is the infinity of the sign. -/
theorem RoundedWithSign.eq_infinity (h : RoundedWithSign u x w) (hx : 2 ^ 1024 ≤ |x|) : w = infinity u := by
  have hr := h.isRounded
  have h0 : (0 : ℚ) < 2 ^ 1024 := by positivity
  have h1 : (0 : ℚ) < 2 ^ 970 := by positivity
  rw [IsRounded, if_pos ((sub_le_self _ h1.le).trans hx), h.decide_neg (abs_pos.1 (h0.trans_le hx))] at hr
  exact hr

/-- A value some pattern encodes is kept (R160 (a)). -/
theorem finiteValue_of_isRounded {z : Word} (h : IsRounded x w) (hz : finiteValue z = some x)
    (hx : |x| < 2 ^ 1024 - 2 ^ 970) : finiteValue w = some x := by
  rw [IsRounded, if_neg (not_le.2 hx)] at h
  obtain ⟨ρ, hρ, hn⟩ := h
  have h0 := (hn z x hz).1
  rw [sub_self, abs_zero, abs_nonpos_iff, sub_eq_zero] at h0
  rw [hρ, h0]

/-! ### Finite operands -/

/-- A sum of signed magnitudes is the rounding of a signed magnitude, `-0` only for two negative operands. -/
theorem ieeeAdd_finite (s t : Bool) (m n : Nat) :
    ∃ u p, ieeeAdd (.finite s m) (.finite t n) = some (withSign u (roundMag p 1)) ∧
      signFactor s * m + signFactor t * n = signFactor u * (p : ℚ) ∧ (p = 0 → u = (s && t)) := by
  have ht : s ≠ t → signFactor t = - signFactor s := by cases s <;> cases t <;> simp [signFactor]
  have hzero : s ≠ t → false = (s && t) := by cases s <;> cases t <;> simp
  simp only [ieeeAdd]
  split_ifs with hst hmn hlt
  · subst hst
    exact ⟨s, m + n, rfl, by push_cast; ring, by simp⟩
  · refine ⟨false, 0, by rw [roundMag_zero], ?_, fun _ => hzero hst⟩
    rw [ht hst, hmn, Nat.cast_zero]; ring
  · refine ⟨s, m - n, rfl, ?_, by omega⟩
    rw [ht hst, Nat.cast_sub hlt.le]; ring
  · refine ⟨t, n - m, rfl, ?_, by omega⟩
    rw [ht hst, Nat.cast_sub (by omega)]; ring

theorem signFactor_not (s : Bool) : signFactor (!s) = - signFactor s := by cases s <;> simp [signFactor]

/-- The sum of two signed values is rounded once. -/
theorem ieeeAdd_rounded (s t : Bool) (m n : Nat) :
    ∃ u w, ieeeAdd (.finite s m) (.finite t n) = some w ∧
      RoundedWithSign u (signFactor s * m / unitsPerOne + signFactor t * n / unitsPerOne) w ∧
      (signFactor s * m / unitsPerOne + signFactor t * n / (unitsPerOne : ℚ) = 0 → u = (s && t)) := by
  obtain ⟨u, p, hw, hp, hu⟩ := ieeeAdd_finite s t m n
  rw [← add_div, hp]
  refine ⟨u, _, hw, ⟨p, 1, Nat.one_pos, by rw [Nat.cast_one, one_mul], rfl⟩, fun h0 => hu ?_⟩
  have hs : signFactor u ≠ 0 := abs_pos.1 (by rw [abs_signFactor]; exact one_pos)
  simpa [hs, unitsPerOne_pos.ne'] using h0

/-- A sum of finite numbers is rounded once; it is `-0` only for two negative operands (R160 (a), (e)). -/
theorem fadd_rounded (ha : finiteValue a = some x) (hb : finiteValue b = some y) :
    ∃ u, RoundedWithSign u (x + y) (fadd a b) ∧ (x + y = 0 → u = (a.msb && b.msb)) := by
  obtain ⟨m, hm, rfl⟩ := finiteValue_cases ha
  obtain ⟨n, hn, rfl⟩ := finiteValue_cases hb
  obtain ⟨u, w, hw, h⟩ := ieeeAdd_rounded a.msb b.msb m n
  rw [fadd, hm, hn, hw]
  exact ⟨u, h⟩

/-- A difference of finite numbers is rounded once; it is `-0` only for a negative less a positive operand
(R160 (a), (e)). -/
theorem fsub_rounded (ha : finiteValue a = some x) (hb : finiteValue b = some y) :
    ∃ u, RoundedWithSign u (x - y) (fsub a b) ∧ (x - y = 0 → u = (a.msb && !b.msb)) := by
  obtain ⟨m, hm, rfl⟩ := finiteValue_cases ha
  obtain ⟨n, hn, rfl⟩ := finiteValue_cases hb
  obtain ⟨u, w, hw, h⟩ := ieeeAdd_rounded a.msb (!b.msb) m n
  rw [signFactor_not, neg_mul, neg_div, ← sub_eq_add_neg] at h
  rw [fsub, hm, hn, ieeeSub, Datum.negate, hw]
  exact ⟨u, h⟩

/-- A product of finite numbers is rounded once under the XOR of the signs (R160 (a), (e)). -/
theorem fmul_rounded (ha : finiteValue a = some x) (hb : finiteValue b = some y) :
    RoundedWithSign (a.msb ^^ b.msb) (x * y) (fmul a b) := by
  obtain ⟨m, hm, rfl⟩ := finiteValue_cases ha
  obtain ⟨n, hn, rfl⟩ := finiteValue_cases hb
  refine ⟨m * n, unitsPerOne, by exact_mod_cast unitsPerOne_pos, ?_, by rw [fmul, hm, hn, ieeeMul, fres]⟩
  rw [signFactor_xor, Nat.cast_mul]; ring

/-- A quotient by a nonzero number likewise. -/
theorem fdiv_rounded (ha : finiteValue a = some x) (hb : finiteValue b = some y) (hy : y ≠ 0) :
    RoundedWithSign (a.msb ^^ b.msb) (x / y) (fdiv a b) := by
  obtain ⟨m, hm, rfl⟩ := finiteValue_cases ha
  obtain ⟨n, hn, rfl⟩ := finiteValue_cases hb
  have hU := unitsPerOne_pos.ne'
  have hn0 : n ≠ 0 := by rintro rfl; simp at hy
  have hn' : (n : ℚ) ≠ 0 := by exact_mod_cast hn0
  refine ⟨m * unitsPerOne, n, by omega, ?_, by rw [fdiv, hm, hn, ieeeDiv, if_neg hn0, fres]⟩
  rw [signFactor_xor, Nat.cast_mul]
  cases b.msb <;> simp only [signFactor, Bool.false_eq_true, if_true, if_false] <;> field_simp

/-! ### NaN results (42_arithmetic R160 (d)) -/

/-- Magnitudes up to infinity are no NaN. -/
theorem isNaN_withSign {m : Nat} (h : m ≤ infinityBits) : isNaN (withSign s m) = false := by
  rw [← Bool.not_eq_true, isNaN_iff, magnitudeBits_withSign (by rw [infinityBits_eq] at h; omega)]
  omega

@[simp] theorem isNaN_withSign_zero : isNaN (withSign s 0) = false := isNaN_withSign (Nat.zero_le _)

@[simp] theorem isNaN_withSign_roundMag (p q : Nat) : isNaN (withSign s (roundMag p q)) = false :=
  isNaN_withSign (roundMag_le p q)

@[simp] theorem isNaN_infinity : isNaN (infinity s) = false := isNaN_withSign le_rfl

/-- Only a zero is read as no units. -/
theorem f64_eq_zero : f64 a = .finite s 0 ↔ a = withSign s 0 := by
  constructor
  · intro h
    obtain ⟨-, rfl, h0⟩ := f64_eq_finite.1 h
    rw [← units_eq_zero.1 h0, withSign_magnitudeBits]
  · rintro rfl
    rw [f64_withSign (by norm_num [infinityBits]), units_zero]

/-- An operation that answers no NaN pattern of its own delivers a NaN exactly where it answers none. -/
theorem isNaN_fres {op : ArithOp} {o : Option Word} (h : ∀ w, o = some w → isNaN w = false) :
    isNaN (fres op a b o) = true ↔ o = none := by
  cases o with
  | none => simp [fres, isNaN_nanPattern]
  | some w => simp [fres, h w rfl]

section Operations

variable {d e : Datum}

/-- A sum that answers a pattern answers no NaN; likewise a product and a quotient below. -/
theorem isNaN_of_ieeeAdd : ∀ w, ieeeAdd d e = some w → isNaN w = false := by
  rcases d with _ | s | ⟨s, m⟩ <;> rcases e with _ | t | ⟨t, n⟩
  case finite.finite =>
    obtain ⟨u, p, hw, -⟩ := ieeeAdd_finite s t m n
    simp [hw]
  all_goals simp [ieeeAdd]

theorem isNaN_of_ieeeMul : ∀ w, ieeeMul d e = some w → isNaN w = false := by
  rcases d with _ | s | ⟨s, m⟩ <;> rcases e with _ | t | ⟨t, n⟩ <;> simp [ieeeMul]

theorem isNaN_of_ieeeDiv : ∀ w, ieeeDiv d e = some w → isNaN w = false := by
  rcases d with _ | s | ⟨s, m⟩ <;> rcases e with _ | t | ⟨t, n⟩
  case finite.finite =>
    simp only [ieeeDiv]
    split_ifs <;> simp
  all_goals simp [ieeeDiv]

/-- The sum is invalid for infinities of opposite signs (R160 (d)). -/
theorem ieeeAdd_eq_none :
    ieeeAdd d e = none ↔ d = .nan ∨ e = .nan ∨ ∃ s, d = .infinite s ∧ e = .infinite (!s) := by
  rcases d with _ | s | ⟨s, m⟩ <;> rcases e with _ | t | ⟨t, n⟩
  case finite.finite =>
    obtain ⟨u, p, hw, -⟩ := ieeeAdd_finite s t m n
    simp [hw]
  case infinite.infinite => cases s <;> cases t <;> simp [ieeeAdd]
  all_goals simp [ieeeAdd]

theorem negate_eq_nan : e.negate = .nan ↔ e = .nan := by cases e <;> simp [Datum.negate]

theorem negate_eq_infinite_not : e.negate = .infinite (!s) ↔ e = .infinite s := by cases e <;> simp [Datum.negate]

/-- The difference is invalid for infinities of one sign (R160 (d)). -/
theorem ieeeSub_eq_none :
    ieeeSub d e = none ↔ d = .nan ∨ e = .nan ∨ ∃ s, d = .infinite s ∧ e = .infinite s := by
  simp only [ieeeSub, ieeeAdd_eq_none, negate_eq_nan, negate_eq_infinite_not]

/-- The product is invalid for a zero and an infinity (R160 (d)). -/
theorem ieeeMul_eq_none :
    ieeeMul d e = none ↔ d = .nan ∨ e = .nan ∨
      (∃ s t, d = .finite s 0 ∧ e = .infinite t) ∨ ∃ s t, d = .infinite s ∧ e = .finite t 0 := by
  rcases d with _ | s | ⟨s, m⟩ <;> rcases e with _ | t | ⟨t, n⟩ <;> simp [ieeeMul]

/-- The quotient is invalid for two zeros and for two infinities (R160 (d), R165). -/
theorem ieeeDiv_eq_none :
    ieeeDiv d e = none ↔ d = .nan ∨ e = .nan ∨
      (∃ s t, d = .finite s 0 ∧ e = .finite t 0) ∨ ∃ s t, d = .infinite s ∧ e = .infinite t := by
  rcases d with _ | s | ⟨s, m⟩ <;> rcases e with _ | t | ⟨t, n⟩
  case finite.finite =>
    simp only [ieeeDiv]
    split_ifs <;> simp [*]
  all_goals simp [ieeeDiv]

end Operations

theorem isNaN_fadd :
    isNaN (fadd a b) = true ↔ isNaN a = true ∨ isNaN b = true ∨ ∃ s, a = infinity s ∧ b = infinity (!s) := by
  rw [fadd, isNaN_fres isNaN_of_ieeeAdd, ieeeAdd_eq_none]
  simp only [f64_eq_nan, f64_eq_infinite]

theorem isNaN_fsub :
    isNaN (fsub a b) = true ↔ isNaN a = true ∨ isNaN b = true ∨ ∃ s, a = infinity s ∧ b = infinity s := by
  rw [fsub, isNaN_fres (o := ieeeSub _ _) isNaN_of_ieeeAdd, ieeeSub_eq_none]
  simp only [f64_eq_nan, f64_eq_infinite]

theorem isNaN_fmul :
    isNaN (fmul a b) = true ↔ isNaN a = true ∨ isNaN b = true ∨
      (∃ s t, a = withSign s 0 ∧ b = infinity t) ∨ ∃ s t, a = infinity s ∧ b = withSign t 0 := by
  rw [fmul, isNaN_fres isNaN_of_ieeeMul, ieeeMul_eq_none]
  simp only [f64_eq_nan, f64_eq_infinite, f64_eq_zero]

theorem isNaN_fdiv :
    isNaN (fdiv a b) = true ↔ isNaN a = true ∨ isNaN b = true ∨
      (∃ s t, a = withSign s 0 ∧ b = withSign t 0) ∨ ∃ s t, a = infinity s ∧ b = infinity t := by
  rw [fdiv, isNaN_fres isNaN_of_ieeeDiv, ieeeDiv_eq_none]
  simp only [f64_eq_nan, f64_eq_infinite, f64_eq_zero]

/-- A NaN an operation delivers is the open one: it has no other. -/
theorem fres_eq_nanResult {op : ArithOp} {o : Option Word} (h : ∀ w, o = some w → isNaN w = false)
    (hn : isNaN (fres op a b o) = true) : fres op a b o = NanPattern.toWord (Config.nanResult op a b) := by
  rw [(isNaN_fres h).1 hn, fres]

/-! ### Infinite operands and zero divisors (42_arithmetic R160 (e), R165) -/

theorem fadd_infinity_left (s : Bool) (hb : finiteValue b = some y) : fadd (infinity s) b = infinity s := by
  obtain ⟨n, hn, -⟩ := finiteValue_cases hb
  rw [fadd, f64_infinity, hn, ieeeAdd, fres]

theorem fadd_infinity_right (s : Bool) (ha : finiteValue a = some x) : fadd a (infinity s) = infinity s := by
  obtain ⟨m, hm, -⟩ := finiteValue_cases ha
  rw [fadd, f64_infinity, hm, ieeeAdd, fres]

theorem fadd_infinity_infinity (s : Bool) : fadd (infinity s) (infinity s) = infinity s := by
  rw [fadd, f64_infinity, ieeeAdd, if_pos rfl, fres]

theorem fsub_infinity_left (s : Bool) (hb : finiteValue b = some y) : fsub (infinity s) b = infinity s := by
  obtain ⟨n, hn, -⟩ := finiteValue_cases hb
  rw [fsub, f64_infinity, hn, ieeeSub, Datum.negate, ieeeAdd, fres]

theorem fsub_infinity_right (s : Bool) (ha : finiteValue a = some x) : fsub a (infinity s) = infinity (!s) := by
  obtain ⟨m, hm, -⟩ := finiteValue_cases ha
  rw [fsub, f64_infinity, hm, ieeeSub, Datum.negate, ieeeAdd, fres]

theorem fsub_infinity_infinity_not (s : Bool) : fsub (infinity s) (infinity (!s)) = infinity s := by
  rw [fsub, f64_infinity, f64_infinity, ieeeSub, Datum.negate, Bool.not_not, ieeeAdd, if_pos rfl, fres]

/-- A nonzero value is read as a nonzero number of units. -/
theorem exists_units_ne_zero (ha : finiteValue a = some x) (hx : x ≠ 0) : ∃ m, m ≠ 0 ∧ f64 a = .finite a.msb m := by
  obtain ⟨m, hm, rfl⟩ := finiteValue_cases ha
  exact ⟨m, by rintro rfl; simp at hx, hm⟩

theorem fmul_infinity_left (s : Bool) (hb : finiteValue b = some y) (hy : y ≠ 0) :
    fmul (infinity s) b = infinity (s ^^ b.msb) := by
  obtain ⟨n, hn, hf⟩ := exists_units_ne_zero hb hy
  rw [fmul, f64_infinity, hf, ieeeMul, if_neg hn, fres]

theorem fmul_infinity_right (s : Bool) (ha : finiteValue a = some x) (hx : x ≠ 0) :
    fmul a (infinity s) = infinity (s ^^ a.msb) := by
  obtain ⟨m, hm, hf⟩ := exists_units_ne_zero ha hx
  rw [fmul, f64_infinity, hf, ieeeMul, if_neg hm, fres, Bool.xor_comm]

theorem fmul_infinity_infinity (s t : Bool) : fmul (infinity s) (infinity t) = infinity (s ^^ t) := by
  rw [fmul, f64_infinity, f64_infinity, ieeeMul, fres]

theorem fdiv_infinity_left (s : Bool) (hb : finiteValue b = some y) : fdiv (infinity s) b = infinity (s ^^ b.msb) := by
  obtain ⟨n, hn, -⟩ := finiteValue_cases hb
  rw [fdiv, f64_infinity, hn, ieeeDiv, fres]

theorem fdiv_infinity_right (t : Bool) (ha : finiteValue a = some x) :
    fdiv a (infinity t) = withSign (a.msb ^^ t) 0 := by
  obtain ⟨m, hm, -⟩ := finiteValue_cases ha
  rw [fdiv, f64_infinity, hm, ieeeDiv, fres]

/-- A zero divisor is no fault: a nonzero number over it is an infinity (R165). -/
theorem fdiv_zero (t : Bool) (ha : finiteValue a = some x) (hx : x ≠ 0) :
    fdiv a (withSign t 0) = infinity (a.msb ^^ t) := by
  obtain ⟨m, hm, hf⟩ := exists_units_ne_zero ha hx
  rw [fdiv, f64_eq_zero.2 rfl, hf, ieeeDiv, if_pos rfl, if_neg hm, fres]

/-! ### The conversion of an integer (42_arithmetic R166) -/

/-- A nonzero whole number up to 2^53 is shifted up to a significand. -/
theorem exists_significand {n : Nat} (hpos : n ≠ 0) (hn : n ≤ 2 ^ 53) :
    ∃ j ≤ 52, 2 ^ 52 ≤ n * 2 ^ j ∧ n * 2 ^ j ≤ 2 ^ 53 := by
  rcases Nat.lt_or_ge n (2 ^ 52) with h | h
  · have hl : n.log2 < 52 := (Nat.log2_lt hpos).2 h
    refine ⟨52 - n.log2, by omega, ?_, ?_⟩
    · calc 2 ^ 52 = 2 ^ n.log2 * 2 ^ (52 - n.log2) := by rw [← pow_add, Nat.add_sub_cancel' hl.le]
        _ ≤ _ := Nat.mul_le_mul_right _ (Nat.log2_self_le hpos)
    · calc n * 2 ^ (52 - n.log2) ≤ 2 ^ (n.log2 + 1) * 2 ^ (52 - n.log2) := Nat.mul_le_mul_right _ Nat.lt_log2_self.le
        _ = 2 ^ 53 := by rw [← pow_add]; congr 1; omega
  · exact ⟨0, by omega, by omega, by omega⟩

/-- Every whole number up to 2^53 is encoded by a pattern of either sign. -/
theorem exists_encoding (s : Bool) {n : Nat} (hn : n ≤ 2 ^ 53) : ∃ z, finiteValue z = some (signFactor s * n) := by
  rcases eq_or_ne n 0 with rfl | hpos
  · exact ⟨withSign s 0, by rw [finiteValue_withSign (by norm_num [infinityBits])]; simp⟩
  obtain ⟨j, hj, hk, hk'⟩ := exists_significand hpos hn
  refine ⟨withSign s ((1074 - j) * 2 ^ 52 + n * 2 ^ j), ?_⟩
  rw [finiteValue_withSign (by rw [infinityBits_eq]; omega), units_shift hk' (.inr hk), mul_assoc, ← pow_add,
    Nat.add_sub_cancel' (by omega), ← unitsPerOne_eq, Nat.cast_mul, ← mul_assoc,
    mul_div_cancel_right₀ _ unitsPerOne_pos.ne']

/-- Signed integers lie far below the threshold of overflow. -/
theorem abs_toInt_lt (v : Word) : |(v.toInt : ℚ)| < 2 ^ 1024 - 2 ^ 970 := by
  have h : |(v.toInt : ℚ)| ≤ 2 ^ 63 := by
    have hlo := BitVec.le_toInt v
    have hhi := BitVec.toInt_lt (x := v)
    rw [← Int.cast_abs]
    exact_mod_cast abs_le.2 ⟨by omega, by omega⟩
  have h1 : (2 : ℚ) ^ 63 < 2 ^ 970 := pow_lt_pow_right₀ one_lt_two (by norm_num)
  rw [show (2 : ℚ) ^ 1024 = 2 ^ 54 * 2 ^ 970 from pow_add 2 54 970]
  generalize (2 : ℚ) ^ 970 = T at *
  linarith

/-- A conversion never overflows (R166). -/
theorem finiteValue_i2f_isSome (v : Word) : (finiteValue (i2f v)).isSome = true := by
  have h := isRounded_i2f v
  rw [IsRounded, if_neg (not_le.2 (abs_toInt_lt v))] at h
  obtain ⟨ρ, hρ, -⟩ := h
  rw [hρ, Option.isSome_some]

/-- Magnitudes up to 2^53 convert exactly (R166). -/
theorem finiteValue_i2f {v : Word} (hv : |v.toInt| ≤ 2 ^ 53) : finiteValue (i2f v) = some (v.toInt : ℚ) := by
  obtain ⟨z, hz⟩ := exists_encoding v.msb (n := v.toInt.natAbs) (by rw [Int.abs_eq_natAbs] at hv; exact_mod_cast hv)
  rw [Nat.cast_natAbs, Int.cast_abs, signFactor_msb_mul_abs_toInt] at hz
  exact finiteValue_of_isRounded (isRounded_i2f v) hz (abs_toInt_lt v)

/-! ### The handlers (42_arithmetic R162 to R166, 60_exceptions R244) -/

/-- The four words with two narrow operands read them from bits 55:52 and 51:48 (30_encoding R95). -/
theorem decode_narrow_pair (m : Mnemonic) {i : NarrowSel → NarrowSel → Instr}
    (hi : m.fromWord w = i (decodeNarrowOperand w rotNarrowA) (decodeNarrowOperand w rotNarrowB))
    (h : w.extractLsb' 56 8 = m.opcode) : decode w = .ok (i (w.extractLsb' 52 4) (w.extractLsb' 48 4)) := by
  rw [decode_of_top_byte m h, hi, decodeNarrowOperand_rotNarrowA, decodeNarrowOperand_rotNarrowB]

/-- What ADD, SUB, MUL and DIV share: the first selector's fault, the second's, the result. -/
theorem finish_arith (f : Word → Word → Word) (na nb : NarrowSel) (s : State) :
    (10 < na.toNat → s.finish (s.arith f na nb) = .next (s.raise (.unknownRegister na.toNat))) ∧
    (na.toNat ≤ 10 → 10 < nb.toNat → s.finish (s.arith f na nb) = .next (s.raise (.unknownRegister nb.toNat))) ∧
    ∀ ra rb, Reg.ofIndex na.toNat = some ra → Reg.ofIndex nb.toNat = some rb →
      s.finish (s.arith f na nb) = .next (s.write .acc (f (s.read ra) (s.read rb))).advance := by
  refine ⟨fun ha => ?_, fun ha hb => ?_, fun ra rb ha hb => ?_⟩
  · rw [State.arith, State.regNarrow_error s ha, Except.error_bind', State.finish_error]
  · obtain ⟨ra, hra⟩ := Reg.exists_ofIndex ha
    rw [State.arith, State.regNarrow_ok s hra, Except.ok_bind', State.regNarrow_error s hb, Except.error_bind',
      State.finish_error]
  · rw [State.arith, State.regNarrow_ok s ha, Except.ok_bind', State.regNarrow_ok s hb, Except.ok_bind',
      Except.pure_eq_ok, State.finish_ok]

theorem execCon_error {fr : FullSel} (s : State) (hf : 10 < fr.toNat) :
    execCon fr s = .next (s.raise (.unknownRegister fr.toNat)) := by
  rw [execCon, State.regFull_error s hf, Except.error_bind', State.finish_error]

theorem execCon_ok {fr : FullSel} {r : Reg} (s : State) (hr : Reg.ofIndex fr.toNat = some r) :
    execCon fr s = .next (s.write .acc (i2f (s.read r))).advance := by
  rw [execCon, State.regFull_ok s hr, Except.ok_bind', Except.pure_eq_ok, State.finish_ok]

end Sys2Proof.Machine

open Sys2Proof Sys2Proof.Machine

/-- Settles O27: the sum of two multiples of a unit is exact, then rounded once. -/
theorem sumsRoundToNearestEven : Obligations.SumsRoundToNearestEven := fun _ _ _ _ ha hb =>
  have ⟨_, hadd, _⟩ := fadd_rounded ha hb
  have ⟨_, hsub, _⟩ := fsub_rounded ha hb
  ⟨hadd.isRounded, hsub.isRounded⟩

/-- Settles O28: products and quotients of units are exact fractions, then rounded once. -/
theorem productsAndQuotientsRoundToNearestEven : Obligations.ProductsAndQuotientsRoundToNearestEven :=
  fun _ _ _ _ ha hb => ⟨(fmul_rounded ha hb).isRounded, fun hy => (fdiv_rounded ha hb hy).isRounded⟩

/-- Settles O30: the operations answer no pattern exactly for a NaN operand or an invalid operation. -/
theorem nanResultsAreTheInvalidOperations : Obligations.NanResultsAreTheInvalidOperations := fun _ _ =>
  ⟨isNaN_fadd, isNaN_fsub, isNaN_fmul, isNaN_fdiv, fres_eq_nanResult isNaN_of_ieeeAdd,
    fres_eq_nanResult isNaN_of_ieeeAdd, fres_eq_nanResult isNaN_of_ieeeMul, fres_eq_nanResult isNaN_of_ieeeDiv⟩

/-- Settles O31: zero results by the sign they are rounded under, infinite operands by the operations' cases. -/
theorem signsOfZerosAndInfinities : Obligations.SignsOfZerosAndInfinities := by
  refine ⟨fun a b x y ha hb h0 => ?_, fun a b x y ha hb h0 => ?_, fun s b y hb => ?_, fun s => ?_,
    fun s b y hb hy => ?_, fun s b y => fdiv_infinity_left s, fun a b x y ha hb hy => (fdiv_rounded ha hb hy).eq_zero,
    fmul_infinity_infinity⟩
  · obtain ⟨u, hr, hu⟩ := fadd_rounded ha hb
    rw [← hu h0, hr.eq_zero_of_exact h0]
  · obtain ⟨u, hr, hu⟩ := fsub_rounded ha hb
    rw [← hu h0, hr.eq_zero_of_exact h0]
  · exact ⟨fadd_infinity_left s hb, fadd_infinity_right s hb, fsub_infinity_left s hb, fsub_infinity_right s hb⟩
  · exact ⟨fadd_infinity_infinity s, fsub_infinity_infinity_not s⟩
  · exact ⟨fmul_infinity_left s hb hy, fmul_infinity_right s hb hy⟩

/-- Settles O21: the shared handler with `fadd`. -/
theorem addWritesTheSum : Obligations.AddWritesTheSum := by
  refine ⟨fun w => decode_narrow_pair .add rfl, finish_arith fadd,
    isNaN_fadd.2 (.inr (.inr ⟨false, rfl, rfl⟩)), ?_, ?_⟩
  all_goals decide +kernel

/-- Settles O22: the shared handler with `fsub`; a value less itself is an exact zero under the positive sign. -/
theorem subWritesTheDifference : Obligations.SubWritesTheDifference := by
  refine ⟨fun w => decode_narrow_pair .sub rfl, finish_arith fsub, fun v x hv => ?_,
    fun s => isNaN_fsub.2 (.inr (.inr ⟨s, rfl, rfl⟩)), ?_⟩
  · obtain ⟨u, hr, hu⟩ := fsub_rounded hv hv
    rw [hr.eq_zero_of_exact (sub_self x), hu (sub_self x), Bool.and_not_self]
    rfl
  · decide +kernel

/-- Settles O23: the shared handler with `fmul`; zero, tiny and huge products by the sign they are rounded under. -/
theorem mulWritesTheProduct : Obligations.MulWritesTheProduct := by
  refine ⟨fun w => decode_narrow_pair .mul rfl, finish_arith fmul,
    fun s t => isNaN_fmul.2 (.inr (.inr (.inl ⟨s, t, rfl, rfl⟩))),
    fun a b x y ha hb => (fmul_rounded ha hb).eq_zero_of_exact, fun a b x y ha hb => (fmul_rounded ha hb).eq_infinity,
    fun a b x y ha hb => (fmul_rounded ha hb).eq_zero, ?_⟩
  decide +kernel

/-- Settles O24: the shared handler with `fdiv`; zero and infinite divisors by the operation's cases. -/
theorem divWritesTheQuotient : Obligations.DivWritesTheQuotient := by
  refine ⟨fun w => decode_narrow_pair .div rfl, finish_arith fdiv, fun a x t => fdiv_zero t,
    fun s t => isNaN_fdiv.2 (.inr (.inr (.inl ⟨s, t, rfl, rfl⟩))),
    fun s t => isNaN_fdiv.2 (.inr (.inr (.inr ⟨s, t, rfl, rfl⟩))), fun a x t => fdiv_infinity_right t, ?_⟩
  decide +kernel

/-- Settles O25: the conversion is correctly rounded, so what a pattern encodes it keeps. -/
theorem conConvertsTheInteger : Obligations.ConConvertsTheInteger := by
  refine ⟨fun w h => ?_, fun fr s => ⟨execCon_error s, fun r => execCon_ok s⟩, finiteValue_i2f_isSome,
    fun v => finiteValue_i2f, ?_⟩
  · rw [← decodeFullRegister_eq]
    exact decode_of_top_byte .con h
  · decide +kernel
end

section
/-!
PROOFS. The stack (43_stack): one equation per branch of PUSH and POP, and the states between a PUSH and the POP that
undoes it, in which the slot pushed and every slot above it keep their words.
-/

namespace Sys2Proof.Machine

variable {s t : State} {fr : FullSel} {r : Reg}

/-! ### Sequences of instructions -/

theorem runInstrs_cons_of_next {i : Instr} (is : List Instr) (h : exec i s = .next t) :
    runInstrs (i :: is) s = runInstrs is t := by
  rw [runInstrs, h]

theorem runInstrs_append_of_next {is : List Instr} (js : List Instr) (h : runInstrs is s = .next t) :
    runInstrs (is ++ js) s = runInstrs js t := by
  induction is generalizing s with
  | nil => rw [next_inj.1 h, List.nil_append]
  | cons i is ih =>
    obtain ⟨u, hu⟩ := exists_exec i s
    rw [runInstrs_cons_of_next is hu] at h
    rw [List.cons_append, runInstrs_cons_of_next _ hu, ih h]

/-! ### PUSH (43_stack R181) -/

/-- The state after a PUSH of `r` that finds a free slot. -/
def State.pushed (s : State) (r : Reg) : State :=
  (State.write { s with mem := Memory.write s.mem (s.read .sp).toNat (s.read r) } .sp (s.read .sp - 1)).advance

theorem exec_push_ok (hr : Reg.ofIndex fr.toNat = some r) (hlo : 30001 ≤ (s.read .sp).toNat)
    (hhi : (s.read .sp).toNat ≤ 40000) : exec (.push fr) s = .next (s.pushed r) := by
  rw [exec, execPush, State.regFull_ok s hr, Except.ok_bind', checkPush_eq_ok.2 ⟨hlo, hhi⟩, Except.ok_bind',
    State.memWrite_ok s _ (by omega)]
  rfl

theorem exec_push_unknown (s : State) (hf : 10 < fr.toNat) :
    exec (.push fr) s = .next (s.raise (.unknownRegister fr.toNat)) := by
  rw [exec, execPush, State.regFull_error s hf, Except.error_bind', State.finish_error]

theorem exec_push_error {f : FaultRecord} (hr : Reg.ofIndex fr.toNat = some r)
    (hf : checkPush (s.read .sp) = .error f) : exec (.push fr) s = .next (s.raise f) := by
  rw [exec, execPush, State.regFull_ok s hr, Except.ok_bind', hf, Except.error_bind', State.finish_error]

@[simp] theorem State.read_pushed_sp (s : State) (r : Reg) : (s.pushed r).read .sp = s.read .sp - 1 := rfl

@[simp] theorem State.read_pushed_ip (s : State) (r : Reg) : (s.pushed r).read .ip = s.read .ip + 1 := rfl

@[simp] theorem State.pushed_runState (s : State) (r : Reg) : (s.pushed r).runState = s.runState := rfl

@[simp] theorem State.pushed_mem (s : State) (r : Reg) :
    (s.pushed r).mem = Memory.write s.mem (s.read .sp).toNat (s.read r) := rfl

theorem State.read_pushed_ne (s : State) (r : Reg) {q : Reg} (hip : q ≠ .ip) (hsp : q ≠ .sp) :
    (s.pushed r).read q = s.read q := by
  rw [State.pushed, State.read_advance_ne _ hip, State.read_write_ne _ _ hsp]
  rfl

/-- The decrement of a nonzero word is exact. -/
theorem toNat_sub_one {a : Word} (h : 1 ≤ a.toNat) : (a - 1).toNat = a.toNat - 1 := by
  bv_omega

/-- Pushing a register as often as there are free slots, or less often, never faults. -/
theorem runInstrs_replicate_push (hr : Reg.ofIndex fr.toNat = some r) (n : Nat)
    (hlo : 30000 + n ≤ (s.read .sp).toNat) (hhi : (s.read .sp).toNat ≤ 40000) :
    ∃ t, runInstrs (List.replicate n (.push fr)) s = .next t ∧ t.runState = s.runState ∧
      (t.read .sp).toNat = (s.read .sp).toNat - n := by
  induction n generalizing s with
  | zero => exact ⟨s, rfl, rfl, rfl⟩
  | succ n ih =>
    have hsp : ((s.pushed r).read .sp).toNat = (s.read .sp).toNat - 1 := toNat_sub_one (by omega)
    obtain ⟨t, ht, hrun, htsp⟩ := ih (s := s.pushed r) (by omega) (by omega)
    refine ⟨t, ?_, hrun, by omega⟩
    rw [List.replicate_succ, runInstrs_cons_of_next _ (exec_push_ok hr (by omega) hhi), ht]

/-! ### POP (43_stack R182) -/

/-- The state after a POP into `r` that finds a word on the stack. -/
def State.popped (s : State) (r : Reg) : State :=
  (s.write .sp (s.read .sp + 1)).moveTo r (Memory.read s.mem ((s.read .sp).toNat + 1))

theorem exec_pop_ok (hr : Reg.ofIndex fr.toNat = some r) (hlo : 30000 ≤ (s.read .sp).toNat)
    (hhi : (s.read .sp).toNat ≤ 39999) : exec (.pop fr) s = .next (s.popped r) := by
  have hsp : (s.read .sp + 1).toNat = (s.read .sp).toNat + 1 := toNat_succ (by omega)
  rw [exec, execPop, checkFull_ok hr, Except.ok_bind', checkPop_eq_ok.2 ⟨hlo, hhi⟩, Except.ok_bind']
  dsimp only
  rw [State.read_write_same, State.memRead_ok _ (by omega), hsp]
  rfl

theorem exec_pop_unknown (s : State) (hf : 10 < fr.toNat) :
    exec (.pop fr) s = .next (s.raise (.unknownRegister fr.toNat)) := by
  rw [exec, execPop, checkFull_error hf, Except.error_bind', State.finish_error]

theorem exec_pop_error {f : FaultRecord} (hr : Reg.ofIndex fr.toNat = some r)
    (hf : checkPop (s.read .sp) = .error f) : exec (.pop fr) s = .next (s.raise f) := by
  rw [exec, execPop, checkFull_ok hr, Except.ok_bind', hf, Except.error_bind', State.finish_error]

/-- A move into a register other than `ip` may as well come after the advance. -/
theorem State.moveTo_of_ne_ip (s : State) (v : Word) (h : r ≠ .ip) : s.moveTo r v = s.advance.write r v := by
  cases r with
  | ip => exact absurd rfl h
  | _ => rfl

/-! ### A PUSH, what comes between, and the POP (43_stack R183) -/

/-- `t` has the registers of `s`, but for `ip`, and every word of its stack above `sp`. -/
structure StackBalanced (s t : State) : Prop where
  read_eq : ∀ q, q ≠ .ip → t.read q = s.read q
  read_above : ∀ x, (s.read .sp).toNat < x → Memory.read t.mem x = Memory.read s.mem x

theorem StackBalanced.refl (s : State) : StackBalanced s s := ⟨fun _ _ => rfl, fun _ _ => rfl⟩

section Bracket

variable (hb : StackBalanced (s.pushed r) t)

include hb

/-- Once what comes between is balanced, a POP puts back `sp` and the word that was pushed. -/
theorem StackBalanced.popped_eq (hsp : 1 ≤ (s.read .sp).toNat) (hm : Memory.wf s.mem = true) :
    t.popped r = (t.write .sp (s.read .sp)).moveTo r (s.read r) := by
  have hdec : ((s.pushed r).read .sp).toNat + 1 = (s.read .sp).toNat := by
    rw [State.read_pushed_sp, toNat_sub_one hsp]
    omega
  have hslot : Memory.read t.mem (s.read .sp).toNat = s.read r := by
    rw [hb.read_above _ (by omega), State.pushed_mem, Memory.read_write_same _ hm]
  rw [State.popped, hb.read_eq .sp (by decide), hdec, hslot, State.read_pushed_sp, BitVec.sub_add_cancel]

/-- With `sp` and the register pushed put back, every register but `ip` is as it was. -/
theorem StackBalanced.read_restored {q : Reg} (hq : q ≠ .ip) :
    ((t.write .sp (s.read .sp)).moveTo r (s.read r)).read q = s.read q := by
  by_cases hqr : q = r
  · rw [hqr, State.read_moveTo_same]
  rw [State.read_moveTo_ne _ _ hqr hq]
  by_cases hqs : q = .sp
  · rw [hqs, State.read_write_same]
  · rw [State.read_write_ne _ _ hqs, hb.read_eq q hq, State.read_pushed_ne s r hq hqs]

/-- The slot pushed lies at `sp`, so the words above it are as they were. -/
theorem StackBalanced.restored (hsp : 1 ≤ (s.read .sp).toNat) :
    StackBalanced s ((t.write .sp (s.read .sp)).moveTo r (s.read r)) := by
  refine ⟨fun _ => hb.read_restored, fun x hx => ?_⟩
  have hdec : ((s.pushed r).read .sp).toNat = (s.read .sp).toNat - 1 := toNat_sub_one hsp
  rw [State.moveTo_mem, State.write_mem, hb.read_above x (by omega), State.pushed_mem,
    Memory.read_write_ne _ (by omega)]

theorem runInstrs_push_pop {is : List Instr} (hr : Reg.ofIndex fr.toNat = some r)
    (hlo : 30001 ≤ (s.read .sp).toNat) (hhi : (s.read .sp).toNat ≤ 40000) (hm : Memory.wf s.mem = true)
    (h : runInstrs is (s.pushed r) = .next t) :
    runInstrs (.push fr :: (is ++ [.pop fr])) s = .next ((t.write .sp (s.read .sp)).moveTo r (s.read r)) := by
  have hsp : (t.read .sp).toNat = (s.read .sp).toNat - 1 := by
    rw [hb.read_eq .sp (by decide), State.read_pushed_sp, toNat_sub_one (by omega)]
  rw [runInstrs_cons_of_next _ (exec_push_ok hr hlo hhi), runInstrs_append_of_next _ h,
    runInstrs_cons_of_next _ (exec_pop_ok hr (by omega) (by omega)), hb.popped_eq (by omega) hm, runInstrs]

end Bracket

/-- A list of pushes and the pops that undo them are brackets in brackets. -/
theorem runInstrs_pushes_pops (frs : List FullSel) (hfrs : ∀ fr ∈ frs, ∃ r, Reg.ofIndex fr.toNat = some r)
    (hlo : 30000 + frs.length ≤ (s.read .sp).toNat) (hhi : (s.read .sp).toNat ≤ 40000)
    (hm : Memory.wf s.mem = true) :
    ∃ u, runInstrs (frs.map Instr.push ++ frs.reverse.map Instr.pop) s = .next u ∧ StackBalanced s u := by
  induction frs generalizing s with
  | nil => exact ⟨s, rfl, .refl s⟩
  | cons fr frs ih =>
    obtain ⟨⟨r, hr⟩, hfrs⟩ := List.forall_mem_cons.1 hfrs
    rw [List.length_cons] at hlo
    have hsp : ((s.pushed r).read .sp).toNat = (s.read .sp).toNat - 1 := toNat_sub_one (by omega)
    obtain ⟨t, ht, hb⟩ := ih (s := s.pushed r) hfrs (by omega) (by omega) (Memory.wf_write _ hm (by omega))
    refine ⟨_, ?_, hb.restored (by omega)⟩
    rw [List.map_cons, List.reverse_cons, List.map_append, List.cons_append, ← List.append_assoc]
    exact runInstrs_push_pop hb hr (by omega) hhi hm ht

end Sys2Proof.Machine

open Sys2Proof Sys2Proof.Machine

/-- Settles O32: the handlers' equations, row by row; a POP into `ip` is a move without the advance. -/
theorem pushAndPopFollowTheDiscipline : Obligations.PushAndPopFollowTheDiscipline := by
  refine ⟨fun w => ?_, fun n fr s hf => ?_, fun fr s =>
    ⟨fun hf => ⟨exec_push_unknown s hf, exec_pop_unknown s hf⟩, fun r hr => ⟨exec_push_ok hr,
      fun h => exec_push_error hr (checkPush_eq_error.2 (.inl ⟨h, rfl⟩)),
      fun h => exec_push_error hr (checkPush_eq_error.2 (.inr ⟨h, rfl⟩)), fun hlo hhi => ?_,
      fun h => exec_pop_error hr (checkPop_eq_error.2 (.inl ⟨h, rfl⟩)),
      fun h => exec_pop_error hr (checkPop_eq_error.2 (.inr ⟨h, rfl⟩))⟩⟩⟩
  · rw [← decodeFullRegister_eq]
    exact ⟨decode_of_top_byte .push, decode_of_top_byte .pop⟩
  · obtain ⟨r, hr⟩ := Reg.exists_ofIndex hf
    exact runInstrs_replicate_push hr n
  · rw [exec_pop_ok hr hlo hhi]
    refine ⟨?_, ?_, fun hip _ => ?_⟩
    · rintro rfl; rfl
    · rintro rfl; rfl
    · rw [State.popped, State.moveTo_of_ne_ip _ _ hip]; rfl

/-- Settles O33: (a) and (c) are a bracket with nothing in it, (b) brackets in brackets. -/
theorem stackLaws : Obligations.StackLaws := by
  refine ⟨fun fr r s hr hip hlo hhi hm => ?_, fun frs s hfrs hlo hhi hm => ?_, fun s hlo hhi hm => ?_⟩
  · have hb := StackBalanced.refl (s.pushed r)
    refine ⟨_, runInstrs_push_pop (is := []) hb hr hlo hhi hm rfl, fun _ => hb.read_restored, ?_, ?_⟩
    · rw [State.read_moveTo_ip, if_neg hip, State.read_write_ne _ _ (by decide), State.read_pushed_ip]
      exact BitVec.add_assoc _ _ _
    · rw [State.moveTo_mem, State.write_mem, State.pushed_mem, Memory.read_write_same _ hm]
  · obtain ⟨u, hu, hb⟩ :=
      runInstrs_pushes_pops frs (fun fr hfr => (hfrs fr hfr).imp fun _ h => h.1) hlo hhi hm
    exact ⟨u, hu, hb.read_eq⟩
  · have hb := StackBalanced.refl (s.pushed .ip)
    refine ⟨_, runInstrs_push_pop (is := []) hb rfl hlo hhi hm rfl, RegFile.ext_read fun q => ?_, rfl⟩
    by_cases hq : q = .ip
    · exact hq ▸ State.read_moveTo_same _ _ _
    · exact hb.read_restored hq
end

section
/-!
PROOFS. Load and store (44_load_store): one equation per branch of LD and ST, and the pairs of R203 as the two branches
that complete, one after the other.
-/

namespace Sys2Proof.Machine

variable {s u : State} {fr : FullSel} {r : Reg} {a : AddrField}

/-! ### LD (44_load_store R201) -/

theorem exec_ld_unknown (a : AddrField) (s : State) (hf : 10 < fr.toNat) :
    exec (.ld fr a) s = .next (s.raise (.unknownRegister fr.toNat)) := by
  rw [exec, execLd, checkFull_error hf, Except.error_bind', State.finish_error]

theorem exec_ld_outside (s : State) (hr : Reg.ofIndex fr.toNat = some r) (ha : a.toNat < 40001 ∨ 50000 < a.toNat) :
    exec (.ld fr a) s = .next (s.raise (.outOfBounds (address a))) := by
  rw [exec, execLd, checkFull_ok hr, Except.ok_bind', checkVariableZone_address_error ha, Except.error_bind',
    State.finish_error]

theorem exec_ld_ok (s : State) (hr : Reg.ofIndex fr.toNat = some r) (hlo : 40001 ≤ a.toNat) (hhi : a.toNat ≤ 50000) :
    exec (.ld fr a) s = .next (s.moveTo r (Memory.read s.mem a.toNat)) := by
  rw [exec, execLd, checkFull_ok hr, Except.ok_bind', checkVariableZone_address_ok hlo hhi, Except.ok_bind',
    State.memRead_ok s (by rwa [toNat_address]), toNat_address, Except.ok_bind', Except.pure_eq_ok, State.finish_ok]

/-! ### ST (44_load_store R202) -/

/-- The state after an ST of `r` at an address in the variable zone. -/
def State.stored (s : State) (r : Reg) (a : AddrField) : State :=
  State.advance { s with mem := Memory.write s.mem a.toNat (s.read r) }

@[simp] theorem State.stored_mem (s : State) (r : Reg) (a : AddrField) :
    (s.stored r a).mem = Memory.write s.mem a.toNat (s.read r) := rfl

theorem State.read_stored_ne (s : State) (r : Reg) (a : AddrField) {q : Reg} (hq : q ≠ .ip) :
    (s.stored r a).read q = s.read q := State.read_advance_ne _ hq

theorem exec_st_unknown (a : AddrField) (s : State) (hf : 10 < fr.toNat) :
    exec (.st fr a) s = .next (s.raise (.unknownRegister fr.toNat)) := by
  rw [exec, execSt, State.regFull_error s hf, Except.error_bind', State.finish_error]

theorem exec_st_outside (s : State) (hr : Reg.ofIndex fr.toNat = some r) (ha : a.toNat < 40001 ∨ 50000 < a.toNat) :
    exec (.st fr a) s = .next (s.raise (.outOfBounds (address a))) := by
  rw [exec, execSt, State.regFull_ok s hr, Except.ok_bind', checkVariableZone_address_error ha, Except.error_bind',
    State.finish_error]

theorem exec_st_ok (s : State) (hr : Reg.ofIndex fr.toNat = some r) (hlo : 40001 ≤ a.toNat) (hhi : a.toNat ≤ 50000) :
    exec (.st fr a) s = .next (s.stored r a) := by
  rw [exec, execSt, State.regFull_ok s hr, Except.ok_bind', checkVariableZone_address_ok hlo hhi, Except.ok_bind',
    State.memWrite_ok s _ (by rwa [toNat_address]), toNat_address, Except.ok_bind', Except.pure_eq_ok, State.finish_ok,
    State.stored]

theorem Memory.read_stored_same (r : Reg) (a : AddrField) (hm : Memory.wf s.mem = true) :
    Memory.read (s.stored r a).mem a.toNat = s.read r := Memory.read_write_same _ hm

/-- A fetch at the address stored to finds the word stored (20_memory R64). -/
theorem State.fetch_of_mem_stored (hm : Memory.wf s.mem = true) (ha : a.toNat ≤ 50000)
    (hu : u.mem = (s.stored r a).mem) (hip : u.read .ip = address a) : u.fetch = .ok (s.read r) := by
  rw [State.fetch_ok (by rwa [hip, toNat_address]), hip, toNat_address, hu, Memory.read_stored_same r a hm]

/-! ### The pairs (44_load_store R203) -/

theorem runInstrs_ld_st (s : State) (hr : Reg.ofIndex fr.toNat = some r) (hlo : 40001 ≤ a.toNat)
    (hhi : a.toNat ≤ 50000) :
    runInstrs [.ld fr a, .st fr a] s = .next ((s.moveTo r (Memory.read s.mem a.toNat)).stored r a) := by
  rw [runInstrs_cons_of_next _ (exec_ld_ok s hr hlo hhi), runInstrs_cons_of_next _ (exec_st_ok _ hr hlo hhi), runInstrs]

theorem runInstrs_st_ld (s : State) (hr : Reg.ofIndex fr.toNat = some r) (hlo : 40001 ≤ a.toNat)
    (hhi : a.toNat ≤ 50000) (hm : Memory.wf s.mem = true) :
    runInstrs [.st fr a, .ld fr a] s = .next ((s.stored r a).moveTo r (s.read r)) := by
  rw [runInstrs_cons_of_next _ (exec_st_ok s hr hlo hhi), runInstrs_cons_of_next _ (exec_ld_ok _ hr hlo hhi),
    Memory.read_stored_same r a hm, runInstrs]

end Sys2Proof.Machine

open Sys2Proof Sys2Proof.Machine

/-- Settles O36: LD then ST writes back the word read; ST then LD reads back the word written. -/
theorem loadStorePairsMoveThePattern : Obligations.LoadStorePairsMoveThePattern := by
  refine fun fr r a s hr hip hlo hhi hm =>
    ⟨⟨_, runInstrs_ld_st s hr hlo hhi, ?_, ?_⟩, ⟨_, runInstrs_st_ld s hr hlo hhi hm, ?_, ?_⟩⟩
  · rw [State.stored_mem, State.moveTo_mem, State.read_moveTo_same, Memory.write_read hm hhi]
  · rw [State.read_stored_ne _ _ _ hip, State.read_moveTo_same]
  · rw [State.moveTo_mem, State.stored_mem]
  · exact State.read_moveTo_same _ _ _

/-- Settles O34: the handler's equations; a load into `ip` is a move without the advance. -/
theorem ldLoadsAVariableWord : Obligations.LdLoadsAVariableWord := by
  refine ⟨fun w h => ?_, fun fr a s => ⟨exec_ld_unknown a s, fun r hr => ⟨exec_ld_outside s hr, fun hlo hhi => ?_⟩⟩⟩
  · rw [← decodeFullRegister_eq, ← decodeAddressField_eq]
    exact decode_of_top_byte .ld h
  · rw [exec_ld_ok s hr hlo hhi]
    refine ⟨?_, fun hip => ?_⟩
    · rintro rfl; rfl
    · rw [State.moveTo_of_ne_ip _ _ hip]; rfl

/-- Settles O35: the handler's equations, and the fetch of the word just written. -/
theorem stStoresAVariableWord : Obligations.StStoresAVariableWord := by
  refine ⟨fun w h => ?_, fun fr a s => ⟨exec_st_unknown a s, fun r hr => ⟨exec_st_outside s hr, fun hlo hhi =>
    ⟨exec_st_ok s hr hlo hhi, fun hm t u ht hu hip => ?_⟩⟩⟩⟩
  · rw [← decodeFullRegister_eq, ← decodeAddressField_eq]
    exact decode_of_top_byte .st h
  · obtain rfl : s.stored r a = t := next_inj.1 ((exec_st_ok s hr hlo hhi).symm.trans ht)
    exact State.fetch_of_mem_stored hm hhi hu hip
end

section
/-!
PROOFS. Control transfer (45_control_transfer): a jump is one write of `ip`; the six conditions are the sign bit of `acc`
and its being zero, which for a binary64 pattern are the sign of the number and its being +0.
-/

namespace Sys2Proof.Machine

variable {v w : Word} {x : ℚ} {a : AddrField} {s : State}

/-! ### The conditions on a pattern (45_control_transfer R223, R230) -/

/-- A signed value is negative just if the sign bit is set. -/
theorem condLs_eq_msb (v : Word) : condLs v = v.msb := BitVec.msb_eq_toInt.symm

/-- On a pattern other than 0 JEQ falls through, and the sign bit tells JGR from JLS. -/
theorem conds_of_ne_zero (hv : v ≠ 0) : condGr v = !v.msb ∧ condEq v = false ∧ condLs v = v.msb := by
  have h0 : v.toInt ≠ 0 := fun h => hv (BitVec.eq_of_toInt_eq h)
  refine ⟨?_, decide_eq_false h0, condLs_eq_msb v⟩
  rw [← condLs_eq_msb, condGr, condLs, ← decide_not, decide_eq_decide]
  omega

/-! ### The sign of an encoded number (45_control_transfer R223) -/

/-- Of the patterns other than -0.0 only the pattern 0 encodes zero. -/
theorem eq_zero_iff_of_finiteValue (h : finiteValue v = some x) (hv : v ≠ 0x8000_0000_0000_0000) : x = 0 ↔ v = 0 := by
  have hx : x = 0 ↔ v = withSign v.msb 0 := by
    obtain ⟨m, hm, rfl⟩ := finiteValue_cases h
    rw [← f64_eq_zero, hm]
    cases v.msb <;> simp [signFactor, unitsPerOne_pos.ne']
  rw [hx]
  cases hs : v.msb with
  | false => rfl
  | true => exact ⟨fun h => absurd h hv, by rintro rfl; cases hs⟩

/-- A number other than zero is negative just if its sign bit is set. -/
theorem decide_neg_of_finiteValue (h : finiteValue v = some x) (hx : x ≠ 0) : decide (x < 0) = v.msb := by
  obtain ⟨m, -, rfl⟩ := finiteValue_cases h
  exact RoundedWithSign.decide_neg ⟨m, 1, Nat.one_pos, by rw [Nat.cast_one, one_mul], rfl⟩ hx

/-! ### The words of the jumps (30_encoding R91, R95) -/

/-- A word whose opcode reads the address field alone is decoded to its bits 31:0. -/
theorem decode_address_form (m : Mnemonic) {i : AddrField → Instr} (hm : m.fromWord w = i (decodeAddressField w))
    (h : w.extractLsb' 56 8 = m.opcode) : decode w = .ok (i (w.extractLsb' 0 32)) := by
  rw [decode_of_top_byte m h, hm, decodeAddressField_eq]

/-! ### The jumps (45_control_transfer R220, R224 to R229) -/

/-- A conditional jump is one write of `ip`. -/
theorem State.jumpIf_decide (s : State) (P : Word → Prop) [DecidablePred P] (a : AddrField) :
    s.jumpIf (fun v => decide (P v)) a = s.write .ip (if P (s.read .acc) then address a else s.read .ip + 1) := by
  obtain ⟨hc, e⟩ | ⟨hc, e⟩ := s.jumpIf_cases (fun v => decide (P v)) a
  · rw [e, if_pos (of_decide_eq_true hc)]
  · rw [e, if_neg (of_decide_eq_false hc), State.advance]

theorem exec_jmp (a : AddrField) (s : State) : exec (.jmp a) s = .next (s.write .ip (address a)) := rfl

/-- A jump to the address it stands at changes nothing. -/
theorem exec_jmp_self (hip : s.read .ip = address a) : exec (.jmp a) s = .next s := by
  rw [exec_jmp, ← hip]
  rfl

/-- The word at a target in memory is the next one fetched. -/
theorem State.fetch_write_ip (s : State) (ha : a.toNat ≤ 50000) :
    (s.write .ip (address a)).fetch = .ok (Memory.read s.mem a.toNat) := by
  rw [State.fetch_ok (by rwa [State.read_write_same, toNat_address]), State.read_write_same, toNat_address,
    State.write_mem]

/-- At a target outside memory the next step is the fault of the fetch. -/
theorem step_write_ip_outside (hd : s.discarded = false) (hr : s.runState = some .running) (ha : 50000 < a.toNat) :
    step (s.write .ip (address a)) = .next ((s.write .ip (address a)).raise (.fetchOutOfBounds (address a))) := by
  have h := State.nextInstr_fetchError (s := s.write .ip (address a)) (by rwa [State.read_write_same, toNat_address])
  rw [State.read_write_same] at h
  exact step_of_nextInstr_error (s := s.write .ip (address a)) hd hr h

end Sys2Proof.Machine

open Sys2Proof Sys2Proof.Machine

/-- Settles O41: zero or not; a pattern that is not 0 is tested by its sign bit, the sign of a number it encodes. -/
theorem jumpTestOnDoubles : Obligations.JumpTestOnDoubles := by
  refine fun v => ⟨fun x h hv => ?_, rfl, fun h => ?_⟩
  · have hzero := eq_zero_iff_of_finiteValue h hv
    by_cases hx : x = 0
    · obtain rfl := hzero.1 hx
      subst hx
      decide
    · obtain ⟨hgr, heq, hls⟩ := conds_of_ne_zero (mt hzero.2 hx)
      rw [hgr, heq, hls, ← decide_neg_of_finiteValue h hx, ← decide_not, decide_eq_false hx]
      exact ⟨decide_eq_decide.2 (not_lt.trans (Ne.le_iff_lt (Ne.symm hx))), rfl, rfl⟩
  · have hv : v ≠ 0 := by
      rintro rfl
      exact absurd (finiteValue_eq_none.1 h) (by decide)
    obtain ⟨hgr, heq, hls⟩ := conds_of_ne_zero hv
    exact ⟨hgr, hls, heq⟩

/-- Settles O38: the target is written to `ip`, where the next fetch looks. -/
theorem jmpSetsTheInstructionPointer : Obligations.JmpSetsTheInstructionPointer := by
  refine ⟨fun _ => decode_address_form .jmp rfl, fun a s =>
    ⟨exec_jmp a s, fun hd hr hn hip => ?_, fun ha t ht => ?_, fun hd hr ha t ht => ?_⟩⟩
  · exact run_of_step_self ((step_of_nextInstr_ok hd hr hn).trans (exec_jmp_self hip))
  · obtain rfl : s.write .ip (address a) = t := next_inj.1 ht
    exact s.fetch_write_ip ha
  · obtain rfl : s.write .ip (address a) = t := next_inj.1 ht
    exact step_write_ip_outside hd hr ha

/-- Settles O39: each handler is the conditional jump on its own comparison. -/
theorem conditionalJumpsTestTheAccumulator : Obligations.ConditionalJumpsTestTheAccumulator :=
  ⟨fun _ => ⟨decode_address_form .jgr rfl, decode_address_form .jge rfl, decode_address_form .jeq rfl,
    decode_address_form .jne rfl, decode_address_form .jle rfl, decode_address_form .jls rfl⟩,
  fun a s => ⟨congrArg _ (s.jumpIf_decide (·.toInt > 0) a), congrArg _ (s.jumpIf_decide (·.toInt ≥ 0) a),
    congrArg _ (s.jumpIf_decide (·.toInt = 0) a), congrArg _ (s.jumpIf_decide (·.toInt ≠ 0) a),
    congrArg _ (s.jumpIf_decide (·.toInt ≤ 0) a), congrArg _ (s.jumpIf_decide (·.toInt < 0) a)⟩⟩

/-- Settles O40: a signed value is above, at or below zero, and the other three tests are the negations. -/
theorem jumpConditionsPartition : Obligations.JumpConditionsPartition := by
  refine fun v => ⟨?_, ?_, ?_, ?_⟩
  · simp only [condGr, condEq, condLs, decide_eq_true_eq, decide_eq_false_iff_not]
    omega
  · exact (decide_eq_decide.2 not_lt.symm).trans decide_not
  · exact (decide_eq_decide.2 not_lt.symm).trans decide_not
  · exact decide_not
end

section
/-!
PROOFS. Faults (60_exceptions): fault entry as the last thing a handler does (R246), the faults each handler raises
(R242), the numbers of the status port (R240), and the order in which the causes are looked for (R244).
-/

namespace Sys2Proof.Machine

variable {s t u : State} {i : Instr} {f : FaultRecord} {fr : FullSel} {a : AddrField}

/-! ### Fault entry (60_exceptions R246) -/

/-- A handler that ends Faulted took its input, if it asked for any, and raised: no other ending is Faulted. -/
theorem Effect.eq_raise_of_faulted (h : Effect s i t) (hr : s.runState = some .running)
    (hf : t.runState = some .faulted) : ∃ u f, Consumes s i u ∧ t = u.raise f := by
  cases h with
  | complete hu => exact nomatch hr.symm.trans (hu.runState_eq.symm.trans hf)
  | fault hu f => exact ⟨_, f, hu, rfl⟩
  | await | emit => exact nomatch hr.symm.trans hf
  | halt => cases hf

/-! ### The status port (60_exceptions R240) -/

theorem State.faultKindCode_of_none (h : s.faultRecord = none) : s.faultKindCode = 0 := by
  rw [State.faultKindCode, h]

theorem State.faultKindCode_of_some (h : s.faultRecord = some f) : s.faultKindCode = f.kind.code := by
  rw [State.faultKindCode, h]

/-! ### The faults of the fetch and of the dispatch (60_exceptions R242) -/

theorem State.nextInstr_error_cases (h : s.nextInstr = .error f) :
    f = .fetchOutOfBounds (s.read .ip) ∨ ∃ op, f = .invalidOpcode op := by
  by_cases hip : 50000 < (s.read .ip).toNat
  · exact .inl (Except.error.inj (h.symm.trans (State.nextInstr_fetchError hip)))
  · rw [not_lt] at hip
    cases hd : decode (Memory.read s.mem (s.read .ip).toNat) with
    | ok i => exact nomatch h.symm.trans (State.nextInstr_ok hip hd)
    | error e =>
      obtain ⟨op⟩ := e
      exact .inr ⟨op, Except.error.inj (h.symm.trans (State.nextInstr_invalid hip hd))⟩

/-! ### The faults of a handler (60_exceptions R242) -/

section Handlers

theorem State.jumpIf_runState (s : State) (c : Word → Bool) (a : AddrField) :
    (s.jumpIf c a).runState = s.runState := by
  obtain ⟨-, e⟩ | ⟨-, e⟩ := s.jumpIf_cases c a <;> rw [e] <;> rfl

variable (hne : t.runState ≠ s.runState) (hf : t.faultRecord = some f)

include hne hf

theorem arith_fault {g : Word → Word → Word} {na nb : NarrowSel} (h : s.finish (s.arith g na nb) = .next t) :
    ∃ k, f = .unknownRegister k := by
  obtain ⟨_, _, -, -, rfl⟩ | ⟨-, rfl⟩ | ⟨-, -, rfl⟩ := arith_cases h
  · exact absurd rfl hne
  all_goals cases hf; exact ⟨_, rfl⟩

theorem execCon_fault (h : execCon fr s = .next t) : ∃ k, f = .unknownRegister k := by
  obtain ⟨_, -, rfl⟩ | ⟨-, rfl⟩ := execCon_cases h
  · exact absurd rfl hne
  · cases hf; exact ⟨_, rfl⟩

theorem execPush_fault (h : execPush fr s = .next t) :
    (∃ k, f = .unknownRegister k) ∨ (∃ sp, f = .stackFull sp) ∨ ∃ sp, f = .badStackPointer sp := by
  obtain ⟨_, -, -, -, rfl⟩ | ⟨-, rfl⟩ | ⟨-, -, rfl⟩ | ⟨-, -, rfl⟩ := execPush_cases h
  · exact absurd rfl hne
  · cases hf; exact .inl ⟨_, rfl⟩
  · cases hf; exact .inr (.inl ⟨_, rfl⟩)
  · cases hf; exact .inr (.inr ⟨_, rfl⟩)

theorem execPop_fault (h : execPop fr s = .next t) :
    (∃ k, f = .unknownRegister k) ∨ (∃ sp, f = .stackEmpty sp) ∨ ∃ sp, f = .badStackPointer sp := by
  obtain ⟨_, -, -, -, rfl⟩ | ⟨-, rfl⟩ | ⟨-, -, rfl⟩ | ⟨-, -, rfl⟩ := execPop_cases h
  · exact absurd (State.moveTo_runState _ _ _) hne
  · cases hf; exact .inl ⟨_, rfl⟩
  · cases hf; exact .inr (.inl ⟨_, rfl⟩)
  · cases hf; exact .inr (.inr ⟨_, rfl⟩)

theorem execLd_fault (h : execLd fr a s = .next t) :
    (∃ k, f = .unknownRegister k) ∨ ∃ x, f = .outOfBounds x := by
  obtain ⟨_, -, -, -, rfl⟩ | ⟨-, rfl⟩ | ⟨-, -, rfl⟩ := execLd_cases h
  · exact absurd (State.moveTo_runState _ _ _) hne
  · cases hf; exact .inl ⟨_, rfl⟩
  · cases hf; exact .inr ⟨_, rfl⟩

theorem execSt_fault (h : execSt fr a s = .next t) :
    (∃ k, f = .unknownRegister k) ∨ ∃ x, f = .outOfBounds x := by
  obtain ⟨_, -, -, -, rfl⟩ | ⟨-, rfl⟩ | ⟨-, -, rfl⟩ := execSt_cases h
  · exact absurd rfl hne
  · cases hf; exact .inl ⟨_, rfl⟩
  · cases hf; exact .inr ⟨_, rfl⟩

theorem execInN_fault (h : execInN s = .next t) : f = .malformed ∨ f = .endOfInput := by
  obtain ⟨-, rfl⟩ | ⟨_, _, -, rfl⟩ | ⟨_, -, rfl⟩ | ⟨_, -, rfl⟩ := execInN_cases h
  · exact absurd rfl hne
  · exact absurd rfl hne
  · cases hf; exact .inl rfl
  · cases hf; exact .inr rfl

theorem execInS_fault (h : execInS a s = .next t) :
    f = .malformed ∨ f = .endOfInput ∨ ∃ x, f = .outOfBounds x := by
  obtain ⟨-, rfl⟩ | ⟨-, -, h⟩ := execInS_cases h
  · cases hf; exact .inr (.inr ⟨_, rfl⟩)
  · obtain ⟨-, rfl⟩ | ⟨_, -, rfl⟩ | ⟨_, -, rfl⟩ | ⟨_, _, -, -, rfl⟩ | ⟨_, _, -, -, rfl⟩ := h
    · exact absurd rfl hne
    · cases hf; exact .inl rfl
    · cases hf; exact .inr (.inl rfl)
    · cases hf; exact .inr (.inr ⟨_, rfl⟩)
    · exact absurd rfl hne

theorem execOutS_fault (h : execOutS a s = .next t) : ∃ x, f = .outOfBounds x := by
  obtain ⟨-, rfl⟩ | ⟨-, -, -, rfl⟩ | ⟨-, -, -, rfl⟩ := execOutS_cases h
  · cases hf; exact ⟨_, rfl⟩
  · cases hf; exact ⟨_, rfl⟩
  · exact absurd rfl hne

end Handlers

/-! ### The first cause that applies (60_exceptions R244) -/

/-- The step from `s` ends Faulted with `f` on record. -/
def FaultsWith (s : State) (f : FaultRecord) : Prop :=
  ∃ t, step s = .next t ∧ t.runState = some .faulted ∧ t.faultRecord = some f

section Steps

variable (hd : s.discarded = false) (hr : s.runState = some .running)

include hd hr

theorem faultsWith_of_nextInstr_error (hn : s.nextInstr = .error f) : FaultsWith s f :=
  ⟨_, step_of_nextInstr_error hd hr hn, rfl, rfl⟩

theorem faultsWith_of_exec (hn : s.nextInstr = .ok i) (h : exec i s = .next (u.raise f)) : FaultsWith s f :=
  ⟨_, (step_of_nextInstr_ok hd hr hn).trans h, rfl, rfl⟩

end Steps

/-- A selector value reported as bad is the value looked at, and names no register. -/
theorem bad_of_eq_some {n k : Nat} (h : (if 10 < n then some n else none) = some k) : 10 < n ∧ n = k := by
  simpa using h

/-- ADD, SUB, MUL and DIV look at the first selector, then at the second. -/
theorem finish_arith_bad (g : Word → Word → Word) {na nb : NarrowSel} {k : Nat} (s : State)
    (hk : Instr.badSelector (.add na nb) = some k) :
    s.finish (s.arith g na nb) = .next (s.raise (.unknownRegister k)) := by
  obtain ⟨first, second, -⟩ := finish_arith g na nb s
  simp only [Instr.badSelector] at hk
  split at hk
  · cases hk; exact first ‹_›
  · obtain ⟨hb, rfl⟩ := bad_of_eq_some hk
    exact second (not_lt.1 ‹_›) hb

/-- A selector that names no register is found before anything else (R244 (3)). -/
theorem exec_of_badSelector {k : Nat} (s : State) (hk : Instr.badSelector i = some k) :
    exec i s = .next (s.raise (.unknownRegister k)) := by
  cases i with
  | add na nb => exact finish_arith_bad fadd s hk
  | sub na nb => exact finish_arith_bad fsub s hk
  | mul na nb => exact finish_arith_bad fmul s hk
  | div na nb => exact finish_arith_bad fdiv s hk
  | con fr => obtain ⟨hf, rfl⟩ := bad_of_eq_some hk; exact execCon_error s hf
  | push fr => obtain ⟨hf, rfl⟩ := bad_of_eq_some hk; exact exec_push_unknown s hf
  | pop fr => obtain ⟨hf, rfl⟩ := bad_of_eq_some hk; exact exec_pop_unknown s hf
  | ld fr a => obtain ⟨hf, rfl⟩ := bad_of_eq_some hk; exact exec_ld_unknown a s hf
  | st fr a => obtain ⟨hf, rfl⟩ := bad_of_eq_some hk; exact exec_st_unknown a s hf
  | _ => cases hk

/-- A full selector that is not bad names a register. -/
theorem exists_ofIndex_of_not_bad (h : (if 10 < fr.toNat then some fr.toNat else none) = none) :
    ∃ r, Reg.ofIndex fr.toNat = some r :=
  Reg.exists_ofIndex (by simpa using h)

theorem exec_push_checkPush_error (hsel : Instr.badSelector (.push fr) = none)
    (h : checkPush (s.read .sp) = .error f) : exec (.push fr) s = .next (s.raise f) :=
  have ⟨_, hr⟩ := exists_ofIndex_of_not_bad hsel
  exec_push_error hr h

theorem exec_pop_checkPop_error (hsel : Instr.badSelector (.pop fr) = none)
    (h : checkPop (s.read .sp) = .error f) : exec (.pop fr) s = .next (s.raise f) :=
  have ⟨_, hr⟩ := exists_ofIndex_of_not_bad hsel
  exec_pop_error hr h

/-- The address check LD, ST, IN_S and OUT_S share comes next after the selector (R244 (4)). -/
theorem exec_outside (s : State) (hsel : Instr.badSelector i = none)
    (hi : (∃ fr, i = .ld fr a) ∨ (∃ fr, i = .st fr a) ∨ i = .inS a ∨ i = .outS a)
    (ha : a.toNat < 40001 ∨ 50000 < a.toNat) : exec i s = .next (s.raise (.outOfBounds (address a))) := by
  obtain ⟨fr, rfl⟩ | ⟨fr, rfl⟩ | rfl | rfl := hi
  · obtain ⟨r, hr⟩ := exists_ofIndex_of_not_bad hsel
    exact exec_ld_outside s hr ha
  · obtain ⟨r, hr⟩ := exists_ofIndex_of_not_bad hsel
    exact exec_st_outside s hr ha
  · exact exec_inS_outside s ha
  · exact exec_outS_outside s ha

end Sys2Proof.Machine

open Sys2Proof Sys2Proof.Machine

/-- Settles O45: a handler that ends Faulted took its input and raised; the fetch and the dispatch raise at once. -/
theorem faultEntryIsPrecise : Obligations.FaultEntryIsPrecise := by
  intro s t hr h hf
  obtain ⟨-, ⟨hn, -⟩ | ⟨-, i, hi, hx⟩ | ⟨-, f, -, rfl⟩⟩ := step_cases h
  · exact absurd hr hn
  · obtain ⟨u, f, hu, rfl⟩ := (exec_effect hx).eq_raise_of_faulted hr hf
    refine ⟨f, ?_⟩
    cases hu with
    | nothing => exact .inl rfl
    | num ha => exact .inr (.inl ⟨_, _, hi, ha, rfl⟩)
    | str ha => exact .inr (.inr ⟨_, _, _, hi, ha, rfl⟩)
  · exact ⟨f, .inl rfl⟩

/-- Settles O47: by the handler; HALT ends Halted, and OUT_N and the jumps end Running. -/
theorem faultsEachInstructionCanRaise : Obligations.FaultsEachInstructionCanRaise := by
  refine ⟨fun i s t f hr h hrun hf => ?_, fun s f h => (State.nextInstr_error_cases h).imp_left fun e => ⟨_, e⟩⟩
  have hne : t.runState ≠ s.runState := by rw [hrun, hr]; decide
  cases i with
  | inN => exact execInN_fault hne hf h
  | inS a => exact execInS_fault hne hf h
  | outS a => exact execOutS_fault hne hf h
  | add na nb | sub na nb | mul na nb | div na nb => exact arith_fault hne hf h
  | con fr => exact execCon_fault hne hf h
  | push fr => exact execPush_fault hne hf h
  | pop fr => exact execPop_fault hne hf h
  | ld fr a => exact execLd_fault hne hf h
  | st fr a => exact execSt_fault hne hf h
  | halt => obtain rfl := next_inj.1 h; cases hrun
  | outN | jmp a => obtain rfl := next_inj.1 h; exact hne rfl
  | jgr a | jge a | jeq a | jne a | jle a | jls a => obtain rfl := next_inj.1 h; exact hne (s.jumpIf_runState _ a)

/-- Settles O48: each cause by the equation of the branch that raises it. -/
theorem faultPriority : Obligations.FaultPriority := by
  intro s hd hr
  refine ⟨fun hip => faultsWith_of_nextInstr_error hd hr (State.nextInstr_fetchError hip),
    fun hip op hop => faultsWith_of_nextInstr_error hd hr (State.nextInstr_invalid hip hop), fun i hn => ?_⟩
  have raises {u : State} {f : FaultRecord} : exec i s = .next (u.raise f) → FaultsWith s f :=
    faultsWith_of_exec hd hr hn
  refine ⟨fun k hk => raises (exec_of_badSelector s hk), fun hsel => ⟨?_, ?_, ?_, ?_,
    fun a hi ha => raises (exec_outside s hsel hi ha), ?_, ?_, ?_, ?_, ?_, ?_⟩⟩
  · rintro fr rfl hsp
    exact raises (exec_push_checkPush_error hsel (checkPush_eq_error.2 (.inl ⟨hsp, rfl⟩)))
  · rintro fr rfl hsp
    exact raises (exec_push_checkPush_error hsel (checkPush_eq_error.2 (.inr ⟨hsp, rfl⟩)))
  · rintro fr rfl hsp
    exact raises (exec_pop_checkPop_error hsel (checkPop_eq_error.2 (.inl ⟨hsp, rfl⟩)))
  · rintro fr rfl hsp
    exact raises (exec_pop_checkPop_error hsel (checkPop_eq_error.2 (.inr ⟨Nat.le_of_lt_succ hsp, rfl⟩)))
  · rintro a rfl hlo hhi hn
    exact raises (exec_outS_too_long hlo hhi hn)
  · rintro rest rfl hs
    exact raises (exec_inN_malformed hs)
  · rintro rest rfl hs
    exact raises (exec_inN_endOfInput hs)
  · rintro a rest rfl hlo hhi hs
    exact raises ((exec_inS_of_base s hlo hhi).trans (State.readString_malformed hs _))
  · rintro a rest rfl hlo hhi hs
    exact raises ((exec_inS_of_base s hlo hhi).trans (State.readString_endOfInput hs _))
  · rintro a cs rest rfl hlo hhi hs hlen
    exact raises ((exec_inS_of_base s hlo hhi).trans (State.readString_too_long hs hlen))

/-- Settles O46: the table row by row. -/
theorem faultCodesOfTheStatusPort : Obligations.FaultCodesOfTheStatusPort := by
  refine ⟨fun s => State.faultKindCode_of_none, fun f s h => ?_⟩
  rw [State.faultKindCode_of_some h]
  cases f <;> rfl
end

section
/-!
PROOFS. Reset, load and the start of a run (70_reset R271 to R275): what each host transaction answers where it is
allowed, and where a preset is not; the first fetch; and some words of 95_test_vectors through the decoder.
-/

namespace Sys2Proof.Machine

variable {s t : State} {p : List Word} {r : Reg} {a : Nat} {v : Word} {h : HostTransaction}

/-! ### The transactions that are allowed (70_reset R272 to R275) -/

section Allowed

variable (hd : s.discarded = false)

include hd

theorem hostTransact_load (hr : s.runState = none) (hp : p.length ≤ 30001) :
    hostTransact (.load p) s =
      .next { s.write .ip 0 with mem := Memory.writeAll s.mem 0 p, runState := some .ready } := by
  simp [hostTransact, hostLoad, hd, hr, maxProgram, hp]

theorem hostTransact_load_too_long (hr : s.runState = none) (hp : 30001 < p.length) :
    hostTransact (.load p) s = .refused (.programTooLong p.length) := by
  simp [hostTransact, hostLoad, hd, hr, maxProgram, hp]

theorem hostTransact_presetReg (hr : s.runState = some .ready) (hip : r ≠ .ip) :
    hostTransact (.presetReg r v) s = .next (s.write r v) := by
  simp [hostTransact, hostPresetReg, hd, hr, hip]

theorem hostTransact_presetMem (hr : s.runState = some .ready) (ha : a ≤ 50000) :
    hostTransact (.presetMem a v) s = .next { s with mem := Memory.write s.mem a v } := by
  simp [hostTransact, hostPresetMem, hd, hr, memTop, memWords, ha]

theorem hostTransact_run (hr : s.runState = some .ready) :
    hostTransact .run s = .next { s with runState := some .running } := by
  simp [hostTransact, hostRun, hd, hr]

end Allowed

/-! ### The presets that are refused (70_reset R273) -/

/-- A preset of a register or of a memory word. -/
def HostTransaction.IsPreset (h : HostTransaction) : Prop :=
  (∃ r v, h = .presetReg r v) ∨ ∃ a v, h = .presetMem a v

theorem hostTransact_presetReg_ip (v : Word) (s : State) :
    hostTransact (.presetReg .ip v) s = .refused .hostTransactionNotAllowed := by
  simp [hostTransact, hostPresetReg]

theorem hostTransact_preset_of_not_ready (hh : h.IsPreset) (hr : s.runState ≠ some .ready) :
    hostTransact h s = .refused .hostTransactionNotAllowed := by
  obtain ⟨r, v, rfl⟩ | ⟨a, v, rfl⟩ := hh
  · simp [hostTransact, hostPresetReg, hr]
  · simp [hostTransact, hostPresetMem, hr]

/-- No preset reaches `ip`. -/
theorem read_ip_of_preset (hh : h.IsPreset) (ht : hostTransact h s = .next t) : t.read .ip = s.read .ip := by
  obtain ⟨r, v, rfl⟩ | ⟨a, v, rfl⟩ := hh
  · cases hostTransact_effect ht with
    | presetReg _ hip => exact s.read_write_ne v hip.symm
  · cases hostTransact_effect ht; rfl

/-! ### The first fetch (70_reset R272, R275) -/

/-- In Ready `ip` is still 0, and run leaves it there. -/
theorem read_ip_of_run (hs : SessionInv s) (ht : hostTransact .run s = .next t) : t.read .ip = 0 := by
  cases hostTransact_effect ht with
  | run hr => exact (hs.start (.inr hr)).1

theorem State.fetch_of_ip_zero (hip : s.read .ip = 0) : s.fetch = .ok (Memory.read s.mem 0) := by
  rw [State.fetch_ok (by simp [hip]), hip]
  rfl

theorem decode_zero : decode 0 = .error (.invalidOpcode 0) := decode_unassigned (.inl rfl)

/-- A word nothing has written is no instruction. -/
theorem step_of_zero_word (hd : s.discarded = false) (hr : s.runState = some .running)
    (hip : (s.read .ip).toNat ≤ 50000) (h0 : Memory.read s.mem (s.read .ip).toNat = 0) :
    step s = .next (s.raise (.invalidOpcode 0)) :=
  step_of_nextInstr_error hd hr (State.nextInstr_invalid hip (h0.symm ▸ decode_zero))

end Sys2Proof.Machine

open Sys2Proof Sys2Proof.Machine

/-- Settles O52: the words of a load inside and outside the program; the empty program leaves a zero word at `ip`. -/
theorem loadCopiesTheProgram : Obligations.LoadCopiesTheProgram := by
  refine ⟨fun p hp => ⟨_, hostTransact_load rfl rfl hp, fun k hk => ?_, fun k hk => ?_, rfl, rfl, rfl⟩,
    fun p => hostTransact_load_too_long rfl rfl, fun t u ht hu => ?_⟩
  · simpa using Memory.read_writeAll_inside p Memory.wf_reset (a := 0) (by omega) hk
  · exact Memory.read_writeAll_outside p (.inr (by omega))
  · cases hostTransact_effect ht
    cases hostTransact_effect hu
    exact step_of_zero_word rfl rfl (Nat.zero_le _) rfl

/-- Settles O53: each preset by the equation of the branch it takes. -/
theorem presetsBeforeTheRun : Obligations.PresetsBeforeTheRun := by
  refine fun s hd => ⟨fun hr => ⟨fun r v => hostTransact_presetReg hd hr, fun v => hostTransact_presetReg_ip v s,
    fun a v ha hm => ?_, fun h t => read_ip_of_preset⟩, fun hr h hh => hostTransact_preset_of_not_ready hh hr⟩
  exact ⟨_, hostTransact_presetMem hd hr ha, fun x => Memory.read_write v hm⟩

/-- Settles O54: `ip` is 0 until the run. -/
theorem runStartsAtAddressZero : Obligations.RunStartsAtAddressZero :=
  ⟨fun _ => hostTransact_run, fun s _ hs ht => State.fetch_of_ip_zero (read_ip_of_run (s.inv_iff.1 hs) ht)⟩

/-- Settles O7: word by word. -/
theorem sampleWordsDecode : Obligations.SampleWordsDecode := by
  unfold Obligations.SampleWordsDecode
  decide
end
